-- ==== Sys2Proof/Word.lean ====
section
/-! DEFINITION. The two word types of the CORE (spec/00_scope.md R5, spec/10_state.md R20). All quantities are
unsigned (R7); the hardware has no signed operation. -/

namespace Sys2Proof

/-- A memory byte, a general register, a timer: 8 bits. -/
abbrev Byte := BitVec 8

/-- An instruction word, the index register, the program counter, a call-stack entry: 16 bits. -/
abbrev Word := BitVec 16

/-- A 12-bit address field `nnn` (R92). -/
abbrev Addr12 := BitVec 12

end Sys2Proof
end

