-- ==== Sys2Proof/Config.lean ====
section
/-! DEFINITION. What is fixed for the machine: the sizes the source fixes (spec/00_scope.md R5), the parameters of R6 that
are sizes, at the defaults the spec gives them (the others stand in Machine/Params), and the free values (R9 `draw`), which
have no body, so that nothing can be proved about the value they take. -/

namespace Sys2Proof

/-- How `LD Vx, K` picks among several pressed keys (R6, R214). -/
inductive KeySelect where
  /-- any pressed key, by a free draw -/
  | any
  /-- the pressed key of the least number -/
  | lowest
  deriving DecidableEq, Repr

/-- The parameters of R6 that are data. -/
structure Params where
  stackDepth : Nat
  displayW : Nat
  displayH : Nat
  glyph : List (List Byte)
  keySelect : KeySelect
  deriving DecidableEq, Repr

/-- Bytes of MEM (R5, R60). -/
abbrev Config.memSize : Nat := 4096

/-- The program base and the reset program counter (R5, R69). -/
abbrev Config.programBase : Nat := 0x200

/-- Bytes from one glyph to the next (R5, R184). -/
abbrev Config.glyphStride : Nat := 5

/-- Glyphs in the table, one for each hexadecimal digit (R5). -/
abbrev Config.glyphCount : Nat := 16

/-- STACK_DEPTH of R6 at its default. DESIGN CHOICE, safe: log entry 1. -/
abbrev Config.stackDepth : Nat := 16

/-- DISPLAY_W of R6 at its default. DESIGN CHOICE, unsafe: log entry 2. -/
abbrev Config.displayW : Nat := 64

/-- DISPLAY_H of R6 at its default. DESIGN CHOICE, unsafe: log entry 2. -/
abbrev Config.displayH : Nat := 32

/-- The byte that `random(0..256)` gives at the draw of this number: a FREE VALUE, no body (R153; log entry 5). -/
opaque Config.randomByte : Nat → Byte

/-- The free choice among several pressed keys at the draw of this number, read modulo their count: a FREE VALUE,
no body (R214; log entry 4). -/
opaque Config.keyChoice : Nat → Nat

end Sys2Proof
end

