-- ==== Sys2Proof/Machine/Params.lean ====
section
/-! DEFINITION. The parameters of spec/00_scope.md R6 that are no sizes, GLYPH and KEY_SELECT, at the defaults the spec
gives them. -/

namespace Sys2Proof

/-- GLYPH of R6 at its default, the table of spec/10_state.md R37, rows top to bottom.
DESIGN CHOICE, unsafe: log entry 3. -/
def Config.glyph : List (List Byte) :=
  [ [0xF0#8, 0x90#8, 0x90#8, 0x90#8, 0xF0#8],   -- 0
    [0x20#8, 0x60#8, 0x20#8, 0x20#8, 0x70#8],   -- 1
    [0xF0#8, 0x10#8, 0xF0#8, 0x80#8, 0xF0#8],   -- 2
    [0xF0#8, 0x10#8, 0xF0#8, 0x10#8, 0xF0#8],   -- 3
    [0x90#8, 0x90#8, 0xF0#8, 0x10#8, 0x10#8],   -- 4
    [0xF0#8, 0x80#8, 0xF0#8, 0x10#8, 0xF0#8],   -- 5
    [0xF0#8, 0x80#8, 0xF0#8, 0x90#8, 0xF0#8],   -- 6
    [0xF0#8, 0x10#8, 0x20#8, 0x40#8, 0x40#8] ]  -- 7
  ++
  [ [0xF0#8, 0x90#8, 0xF0#8, 0x90#8, 0xF0#8],   -- 8
    [0xF0#8, 0x90#8, 0xF0#8, 0x10#8, 0xF0#8],   -- 9
    [0xF0#8, 0x90#8, 0xF0#8, 0x90#8, 0x90#8],   -- A
    [0xE0#8, 0x90#8, 0xE0#8, 0x90#8, 0xE0#8],   -- B
    [0xF0#8, 0x80#8, 0x80#8, 0x80#8, 0xF0#8],   -- C
    [0xE0#8, 0x90#8, 0x90#8, 0x90#8, 0xE0#8],   -- D
    [0xF0#8, 0x80#8, 0xF0#8, 0x80#8, 0xF0#8],   -- E
    [0xF0#8, 0x80#8, 0xF0#8, 0x80#8, 0x80#8] ]  -- F

/-- KEY_SELECT of R6 at its default. DESIGN CHOICE, safe: log entry 4. -/
def Config.keySelect : KeySelect := .any

/-- The parameters together, as WellFormed checks them. -/
def Config.params : Params :=
  { stackDepth := Config.stackDepth
    displayW := Config.displayW
    displayH := Config.displayH
    glyph := Config.glyph
    keySelect := Config.keySelect }

end Sys2Proof
end

