-- ==== Sys2Proof/Syntax.lean ====
section
/-! DEFINITION. The instructions: one constructor for each of the 34 rows of spec/opcode_table.json, in the order of
spec/30_encoding.md R96. The operands are the fields of R92 that the row's rule uses; SHR and SHL have no `y` operand, since
R104 gives all 16 values of that field the same instruction (log entry 12). -/

namespace Sys2Proof

/-- A register number, the value of field `x` or `y` (R92). -/
abbrev RegIdx := Fin 16

/-- A sprite height, the value of field `n` (R92). -/
abbrev Height := Fin 16

inductive Instr where
  /-- 00E0, R200 -/
  | clr
  /-- 00EE, R124 -/
  | ret
  /-- 1nnn, R125 -/
  | jp (nnn : Addr12)
  /-- 2nnn, R126 -/
  | call (nnn : Addr12)
  /-- 3xkk, R140 -/
  | seImm (x : RegIdx) (kk : Byte)
  /-- 4xkk, R141 -/
  | sneImm (x : RegIdx) (kk : Byte)
  /-- 5xy0, R142 -/
  | seReg (x y : RegIdx)
  /-- 6xkk, R150 -/
  | ldImm (x : RegIdx) (kk : Byte)
  /-- 7xkk, R151 -/
  | addImm (x : RegIdx) (kk : Byte)
  /-- 8xy0, R161 -/
  | ldReg (x y : RegIdx)
  /-- 8xy1, R162 -/
  | orReg (x y : RegIdx)
  /-- 8xy2, R163 -/
  | andReg (x y : RegIdx)
  /-- 8xy3, R164 -/
  | xorReg (x y : RegIdx)
  /-- 8xy4, R165 -/
  | addReg (x y : RegIdx)
  /-- 8xy5, R166 -/
  | subReg (x y : RegIdx)
  /-- 8xy6, R167 -/
  | shr (x : RegIdx)
  /-- 8xy7, R168 -/
  | subnReg (x y : RegIdx)
  /-- 8xyE, R169 -/
  | shl (x : RegIdx)
  /-- 9xy0, R143 -/
  | sneReg (x y : RegIdx)
  /-- Annn, R181 -/
  | ldI (nnn : Addr12)
  /-- Bnnn, R127 -/
  | jpV0 (nnn : Addr12)
  /-- Cxkk, R152 -/
  | rnd (x : RegIdx) (kk : Byte)
  /-- Dxyn, R202 -/
  | drw (x y : RegIdx) (n : Height)
  /-- Ex9E, R211 -/
  | skp (x : RegIdx)
  /-- ExA1, R212 -/
  | sknp (x : RegIdx)
  /-- Fx07, R216 -/
  | ldVxDt (x : RegIdx)
  /-- Fx0A, R215 -/
  | ldVxK (x : RegIdx)
  /-- Fx15, R217 -/
  | ldDtVx (x : RegIdx)
  /-- Fx18, R218 -/
  | ldStVx (x : RegIdx)
  /-- Fx1E, R182 -/
  | addI (x : RegIdx)
  /-- Fx29, R184 -/
  | ldF (x : RegIdx)
  /-- Fx33, R185 -/
  | ldB (x : RegIdx)
  /-- Fx55, R186 -/
  | ldMemVx (x : RegIdx)
  /-- Fx65, R187 -/
  | ldVxMem (x : RegIdx)
  deriving DecidableEq, Repr

end Sys2Proof
end

