-- ==== Sys2Proof/Machine/State.lean ====
section
/-! DEFINITION. The state of the CORE, all of it (spec/10_state.md R20, R50), as plain data, and the reasons a rule can
stop. -/

namespace Sys2Proof.Machine

/-- Memory as the cells that differ from the reset image, addresses strictly rising (`Memory.wf` in Ops). -/
abbrev Memory := List Host.Cell

/-- The pixel grid, row by row from the top, each row from the left; true is an on pixel (R33). -/
abbrev Grid := Vector (Vector Bool Config.displayW) Config.displayH

/-- A key number, 0 to 15 (R31). -/
abbrev KeyIdx := Fin 16

/-- STATUS (R34): run or halt, and the fault that halted the core. -/
structure Status where
  /-- HALTED, 1 bit -/
  halted : Bool
  /-- CAUSE, 3 bits, the codes of R231 -/
  cause : BitVec 3
  /-- INFO, 17 bits -/
  info : BitVec 17
  deriving DecidableEq, Repr

/-- The faults of R231. The spec gives each an entry (R236: STATUS records it, the core halts, nothing else changes), so
a rule that raises one ends in the NEXT state `takeFault` gives, and no outcome of a step is ever `.fault`. Every one of
them is safe: the model stops where the spec says the core halts (log entry 13). -/
inductive Fault where
  /-- CAUSE 1, raised by a step whose fetched word is no instruction (R232). Safe. -/
  | invalidOpcode (w : Word)
  /-- CAUSE 2, raised by RET on an empty call stack (R233). Safe. -/
  | stackUnderflow
  /-- CAUSE 3, raised by the fetch, DRW, LD B, LD [I] and LD Vx,[I] on an address of 4096 or more (R234). Safe. -/
  | addressFault (addr : Nat)
  /-- CAUSE 4, raised by CALL on a full call stack (R235). Safe. -/
  | stackOverflow (sp : Nat)
  /-- CAUSE 5, raised by SKP and SKNP on a key number above 15 (R237). Safe. -/
  | keyIndexFault (vx : Byte)
  /-- CAUSE 6, raised by the `load` event on an image of more than 3584 bytes (R238). Safe. -/
  | loadOverflow
  deriving DecidableEq, Repr

/-- Why a step would give an instruction no meaning. No arm of exec does. -/
inductive Refusal where
  /-- Raised by an arm of exec for an instruction not modelled yet; no arm raises it. Safe. -/
  | notModelled (mnemonic : String)
  deriving DecidableEq, Repr

/-- The state of the CORE (R20). -/
structure State where
  /-- V0 to VF; VF is also the flag register (R21, R23) -/
  v : Vector Byte 16
  /-- the index register I (R25) -/
  i : Word
  /-- the program counter PC (R26) -/
  pc : Word
  /-- SP, the number of return addresses on the call stack, 0 to STACK_DEPTH (R29) -/
  sp : Fin (Config.stackDepth + 1)
  /-- STACK[0..STACK_DEPTH-1] (R29) -/
  stack : Vector Word Config.stackDepth
  /-- the delay timer DT (R30) -/
  dt : Byte
  /-- the sound timer ST (R30) -/
  st : Byte
  /-- K[0..15], true is pressed (R31) -/
  keys : Vector Bool 16
  /-- the pixel grid FB (R33) -/
  fb : Grid
  /-- MEM (R35, R60) -/
  mem : Memory
  /-- STATUS (R34) -/
  status : Status
  /-- THE MODEL'S OWN FIELD: how many free draws have been made (R9 `draw`); the number of the next one (log entry 6) -/
  draws : Nat
  deriving DecidableEq, Repr

/-- The state after `reset` (R50, R260). The memory lists nothing: every byte reads as the reset image of R36. The
entries of STACK have no reset value in the spec; zero is a DESIGN CHOICE (log entry 7), and so is 0 for the counter
`draws` (log entry 6). -/
def State.reset : State :=
  { v := Vector.replicate 16 0
    i := 0
    pc := BitVec.ofNat 16 Config.programBase
    sp := 0
    stack := Vector.replicate Config.stackDepth 0
    dt := 0
    st := 0
    keys := Vector.replicate 16 false
    fb := Vector.replicate Config.displayH (Vector.replicate Config.displayW false)
    mem := []
    status := { halted := false, cause := 0, info := 0 }
    draws := 0 }

end Sys2Proof.Machine
end

