-- ==== Sys2Proof/Machine/Ops.lean ====
section
/-! DEFINITION. The named operations over memory, program counter, call stack and status that every rule uses: the
reset image (spec/10_state.md R36), byte reads and writes (spec/20_memory.md R62, R63, R68), the range check of R180, the call
stack (R29), taking a fault (spec/60_exceptions.md R236) and the one way out of it, the reset event (R241, R260). -/

namespace Sys2Proof.Machine

/-! ### Taking a fault -/

/-- The CAUSE code of a fault (R231). -/
def faultCode : Fault → BitVec 3
  | .invalidOpcode _ => 1
  | .stackUnderflow => 2
  | .addressFault _ => 3
  | .stackOverflow _ => 4
  | .keyIndexFault _ => 5
  | .loadOverflow => 6

/-- What INFO records of a fault (R231). -/
def faultInfo : Fault → BitVec 17
  | .invalidOpcode w => w.setWidth 17
  | .stackUnderflow => 0
  | .addressFault a => BitVec.ofNat 17 a
  | .stackOverflow sp => BitVec.ofNat 17 sp
  | .keyIndexFault v => v.setWidth 17
  | .loadOverflow => 0

/-- Fault entry (R236): STATUS records the fault and halts the core; every other piece of state keeps the value it
had before. There is no handler and no vector. -/
def takeFault (f : Fault) (s : State) : State :=
  { s with status := { halted := true, cause := faultCode f, info := faultInfo f } }

/-- The one way out of the halted state (R241): the `reset` event, which puts every piece of state into its reset value
whatever went before (R260). The model's own counter of draws is not set back, so that the draws after a reset are new ones
(log entry 6). -/
def resetEvent (s : State) : State := { State.reset with draws := s.draws }

/-- The end of a rule (R123): its writes take effect together, or, if it raised a fault, none of them does and the
fault is taken in the state before the rule. -/
def commit (s : State) : Except Fault State → Host.Outcome State Fault Refusal
  | .ok t => .next t
  | .error f => .next (takeFault f s)

/-! ### Memory -/

/-- The byte of the reset image at an address: glyph `d`, row `j` at `5*d + j`, zero elsewhere (R36). It is what an
address no cell is listed for reads as. -/
def resetByte (a : Nat) : Byte :=
  if a < Config.glyphStride * Config.glyphCount then
    (Config.glyph.getD (a / Config.glyphStride) []).getD (a % Config.glyphStride) 0
  else 0

/-- The byte a memory holds at an address. -/
def byteAt : Memory → Nat → Byte
  | [], a => resetByte a
  | (b, u) :: rest, a => if a = b then u else byteAt rest a

/-- The cells of a memory but those of one address. -/
def dropCell (m : Memory) (a : Nat) : Memory := m.filter (fun c => c.1 != a)

/-- A cell put in its place among cells of rising addresses. -/
def insertCell : Memory → Nat → Byte → Memory
  | [], a, u => [(a, u)]
  | (b, w) :: rest, a, u =>
    if a < b then (a, u) :: (b, w) :: rest else (b, w) :: insertCell rest a u

/-- A memory with one byte stored, in the canonical form: the cells stay in order, and a byte equal to its reset byte is
not listed. -/
def setByte (m : Memory) (a : Nat) (u : Byte) : Memory :=
  if u = resetByte a then dropCell m a else insertCell (dropCell m a) a u

/-- The cells from an address `lo` up are in canonical form. -/
def wfFrom : Nat → Memory → Bool
  | _, [] => true
  | lo, (a, u) :: rest =>
    decide (lo ≤ a) && decide (a < Config.memSize) && decide (u ≠ resetByte a) && wfFrom (a + 1) rest

/-- The canonical form of a memory: addresses strictly rising and below 4096, no cell equal to its reset byte. -/
def Memory.wf (m : Memory) : Bool := wfFrom 0 m

/-- MemRead of one byte (R62): the byte, or AddressFault from 4096 up. A read changes nothing. -/
def memRead (m : Memory) (addr : Nat) : Except Fault Byte :=
  if addr < Config.memSize then .ok (byteAt m addr) else .error (.addressFault addr)

/-- MemWrite of one byte (R63): the byte stored, or AddressFault from 4096 up. -/
def memWrite (m : Memory) (addr : Nat) (u : Byte) : Except Fault Memory :=
  if addr < Config.memSize then .ok (setByte m addr u) else .error (.addressFault addr)

/-- MemWrite of bytes at rising addresses (R67), after the range check of R180. -/
def storeBytes (m : Memory) (addr : Nat) : List Byte → Memory
  | [] => m
  | u :: rest => storeBytes (setByte m addr u) (addr + 1) rest

/-- The check before a transfer of `len` bytes at `base` (R180): AddressFault of the lowest address of the access that
is 4096 or more, if there is one. An access of no bytes has none (R202 (a)). Addresses are integers and never wrap
(R68). -/
def rangeCheck (base len : Nat) : Except Fault Unit :=
  if len = 0 ∨ base + len ≤ Config.memSize then .ok ()
  else .error (.addressFault (max base Config.memSize))

/-! ### Program counter -/

/-- `pc <- target`. -/
def setPc (s : State) (target : Word) : State := { s with pc := target }

/-- `pc <- pc + 2`, the next instruction (R27). -/
def advance (s : State) : State := setPc s (s.pc + 2)

/-- A skip (R144): `pc + 4` if the condition holds, else `pc + 2`. -/
def skipIf (c : Bool) (s : State) : State := setPc s (if c then s.pc + 4 else s.pc + 2)

/-! ### Call stack -/

/-- Push (R29): StackOverflow if the stack is full, else the entry is written at SP and SP counts up. -/
def pushReturn (s : State) (w : Word) : Except Fault State :=
  if h : s.sp.val < Config.stackDepth then
    .ok { s with stack := s.stack.set s.sp.val w h, sp := ⟨s.sp.val + 1, Nat.succ_lt_succ h⟩ }
  else .error (.stackOverflow s.sp.val)

/-- Pop (R29): StackUnderflow if the stack is empty, else SP counts down and the entry at the new SP is the result. The
entry's storage is left as it is. -/
def popReturn (s : State) : Except Fault (State × Word) :=
  if h : 0 < s.sp.val then
    .ok ({ s with sp := ⟨s.sp.val - 1, by omega⟩ },
         s.stack[s.sp.val - 1]'(by have := s.sp.isLt; omega))
  else .error .stackUnderflow

end Sys2Proof.Machine
end

