-- ==== Sys2Proof/Machine/Operands.lean ====
section
/-! DEFINITION. The operand forms (spec/30_encoding.md R94): a register named by a field, the implied registers V0 and
VF, immediates widened with zeros, the registers V0 to Vx of the transfer instructions, and the address in I plus a byte
offset (spec/44_index_and_memory.md R188). -/

namespace Sys2Proof.Machine

/-- VF, the flag register, V[15] (R23). -/
def flagReg : RegIdx := 15

/-- V0, the implied operand of Bnnn (R127). -/
def zeroReg : RegIdx := 0

/-- `V[r]`. No register is hard-wired (R21). -/
def readReg (s : State) (r : RegIdx) : Byte := s.v[r]

/-- `V[r] <- b`. -/
def writeReg (s : State) (r : RegIdx) (b : Byte) : State := { s with v := s.v.set r.val b r.isLt }

/-- `I <- w`. -/
def setIndex (s : State) (w : Word) : State := { s with i := w }

/-- A register value or a timer widened to 16 bits with zeros (R94). -/
def zextByte (b : Byte) : Word := b.setWidth 16

/-- A 12-bit address widened to 16 bits with zeros (R94). -/
def zextAddr (a : Addr12) : Word := a.setWidth 16

/-- The base address of a data access: I as an integer (R68, R188). -/
def indexBase (s : State) : Nat := s.i.toNat

/-- The registers V0 to Vx in rising order, those Fx55 and Fx65 move (R186, R187). -/
def regsUpTo (x : RegIdx) : List RegIdx := (List.finRange 16).filter (fun j => j ≤ x)

/-- The values of V0 to Vx, V0 first (R186). -/
def regValues (s : State) (x : RegIdx) : List Byte := (regsUpTo x).map (readReg s)

/-- V0 to Vx read from memory, V0 from the lowest address (R187). -/
def loadRegs (s : State) (x : RegIdx) : State :=
  (regsUpTo x).foldl (fun t j => writeReg t j (byteAt s.mem (indexBase s + j.val))) s

end Sys2Proof.Machine
end

