-- ==== Sys2Proof/Machine/Flags.lean ====
section
/-! DEFINITION. Every value the spec writes to VF as a flag (spec/10_state.md R23, spec/43_alu.md R165 to R169,
spec/45_display.md R202). -/

namespace Sys2Proof.Machine

/-- A flag is the byte 1 or 0. -/
def flagByte (c : Bool) : Byte := if c then 1 else 0

/-- The carry of 8xy4: 1 if the unsigned sum exceeds 255 (R165). -/
def carryFlag (a b : Byte) : Byte := flagByte (decide (255 < a.toNat + b.toNat))

/-- The comparison of 8xy5 and 8xy7: 1 if the minuend is strictly greater than the subtrahend (R166, R168). -/
def greaterFlag (minuend subtrahend : Byte) : Byte := flagByte (decide (subtrahend.toNat < minuend.toNat))

/-- The bit 8xy6 shifts out: bit 0 (R167). -/
def lowBitFlag (a : Byte) : Byte := a &&& 1

/-- The bit 8xyE shifts out: bit 7 (R169). -/
def highBitFlag (a : Byte) : Byte := a >>> 7

/-- The collision flag of Dxyn: 1 if the draw turned an on pixel off (R202). -/
def collisionFlag (hit : Bool) : Byte := flagByte hit

/-- VF <- a flag value. -/
def writeFlag (s : State) (f : Byte) : State := writeReg s flagReg f

end Sys2Proof.Machine
end

