-- ==== Sys2Proof/Machine/Alu.lean ====
section
/-! DEFINITION. Register-to-register ALU instructions (spec/43_alu.md). In the five that write VF as a flag the two writes
happen in the order R160 gives, and the second reads the registers as the first left them; it shows only when x or y is
15 (log entry 9). -/

namespace Sys2Proof.Machine

/-- LD Vx, Vy (R161). -/
def execLdReg (x y : RegIdx) (s : State) : Host.Outcome State Fault Refusal :=
  .next (advance (writeReg s x (readReg s y)))

/-- OR Vx, Vy (R162). -/
def execOrReg (x y : RegIdx) (s : State) : Host.Outcome State Fault Refusal :=
  .next (advance (writeReg s x (readReg s x ||| readReg s y)))

/-- AND Vx, Vy (R163). -/
def execAndReg (x y : RegIdx) (s : State) : Host.Outcome State Fault Refusal :=
  .next (advance (writeReg s x (readReg s x &&& readReg s y)))

/-- XOR Vx, Vy (R164). -/
def execXorReg (x y : RegIdx) (s : State) : Host.Outcome State Fault Refusal :=
  .next (advance (writeReg s x (readReg s x ^^^ readReg s y)))

/-- ADD Vx, Vy (R165): both reads first, the sum modulo 256 to Vx, then the carry to VF. -/
def execAddReg (x y : RegIdx) (s : State) : Host.Outcome State Fault Refusal :=
  let a := readReg s x
  let b := readReg s y
  .next (advance (writeFlag (writeReg s x (a + b)) (carryFlag a b)))

/-- SUB Vx, Vy (R166): the comparison to VF, then the difference of the registers as they now are. -/
def execSubReg (x y : RegIdx) (s : State) : Host.Outcome State Fault Refusal :=
  let t := writeFlag s (greaterFlag (readReg s x) (readReg s y))
  .next (advance (writeReg t x (readReg t x - readReg t y)))

/-- SHR Vx (R167): bit 0 to VF, then Vx as it now is, shifted right by one. -/
def execShr (x : RegIdx) (s : State) : Host.Outcome State Fault Refusal :=
  let t := writeFlag s (lowBitFlag (readReg s x))
  .next (advance (writeReg t x (readReg t x >>> 1)))

/-- SUBN Vx, Vy (R168): the comparison to VF, then the reverse difference of the registers as they now are. -/
def execSubnReg (x y : RegIdx) (s : State) : Host.Outcome State Fault Refusal :=
  let t := writeFlag s (greaterFlag (readReg s y) (readReg s x))
  .next (advance (writeReg t x (readReg t y - readReg t x)))

/-- SHL Vx (R169): bit 7 to VF, then Vx as it now is, shifted left by one. -/
def execShl (x : RegIdx) (s : State) : Host.Outcome State Fault Refusal :=
  let t := writeFlag s (highBitFlag (readReg s x))
  .next (advance (writeReg t x (readReg t x <<< 1)))

end Sys2Proof.Machine
end

