-- ==== Sys2Proof/Machine/Control.lean ====
section
/-! DEFINITION. Control transfer (spec/40_cycle_and_control_transfer.md): RET, JP, CALL, JP V0. -/

namespace Sys2Proof.Machine

/-- RET (R124): the popped address is the PC, used as it is; StackUnderflow on an empty stack. -/
def execRet (s : State) : Host.Outcome State Fault Refusal :=
  commit s (match popReturn s with
    | .ok (t, target) => .ok (setPc t target)
    | .error f => .error f)

/-- JP nnn (R125). -/
def execJp (nnn : Addr12) (s : State) : Host.Outcome State Fault Refusal :=
  .next (setPc s (zextAddr nnn))

/-- CALL nnn (R126): pushes the address after itself; StackOverflow on a full stack. -/
def execCall (nnn : Addr12) (s : State) : Host.Outcome State Fault Refusal :=
  commit s (match pushReturn s (s.pc + 2) with
    | .ok t => .ok (setPc t (zextAddr nnn))
    | .error f => .error f)

/-- JP V0, nnn (R127): the exact sum, not reduced modulo 4096. -/
def execJpV0 (nnn : Addr12) (s : State) : Host.Outcome State Fault Refusal :=
  .next (setPc s (zextAddr nnn + zextByte (readReg s zeroReg)))

end Sys2Proof.Machine
end

