-- ==== Sys2Proof/Machine/Display.lean ====
section
/-! DEFINITION. Display instructions (spec/45_display.md): CLR and DRW, and the operations on the pixel grid FB
(spec/10_state.md R33). -/

namespace Sys2Proof.Machine

/-- A grid with every pixel off. -/
def blankGrid : Grid := Vector.replicate Config.displayH (Vector.replicate Config.displayW false)

/-- `FB[r][c]`. -/
def pixelAt (g : Grid) (r : Fin Config.displayH) (c : Fin Config.displayW) : Bool := g[r][c]

/-- `FB[r][c] <- FB[r][c] ^ 1`. -/
def flipPixel (g : Grid) (r : Fin Config.displayH) (c : Fin Config.displayW) : Grid :=
  g.set r.val (g[r].set c.val (!g[r][c]) c.isLt) r.isLt

/-- The row of a sprite pixel, with wraparound: `(cy + j) mod DISPLAY_H` (R202). -/
def wrapRow (cy j : Nat) : Fin Config.displayH := ⟨(cy + j) % Config.displayH, Nat.mod_lt _ (by decide)⟩

/-- The column of a sprite pixel, with wraparound: `(cx + i) mod DISPLAY_W` (R202). -/
def wrapCol (cx i : Nat) : Fin Config.displayW := ⟨(cx + i) % Config.displayW, Nat.mod_lt _ (by decide)⟩

/-- Bit `7 - i` of a sprite byte: the pixel at column offset `i`, bit 7 the leftmost (R201). -/
def spriteBit (b : Byte) (i : Nat) : Bool := b.getLsbD (7 - i)

/-- One pixel of the draw loop (R202): a 1 bit erases an on pixel, which is a hit, or sets an off one. -/
def drawPixel (cx cy j : Nat) (b : Byte) (acc : Grid × Bool) (i : Nat) : Grid × Bool :=
  if spriteBit b i then
    (flipPixel acc.1 (wrapRow cy j) (wrapCol cx i), acc.2 || pixelAt acc.1 (wrapRow cy j) (wrapCol cx i))
  else acc

/-- One sprite row, column offsets 0 to 7 (R202). -/
def drawRow (cx cy j : Nat) (b : Byte) (acc : Grid × Bool) : Grid × Bool :=
  (List.range 8).foldl (drawPixel cx cy j b) acc

/-- The draw loop of R202 over the sprite rows 0 to n-1, the byte of row `j` at `base + j`: the grid it leaves and
whether it erased a pixel. -/
def drawSprite (m : Memory) (base cx cy n : Nat) (g : Grid) : Grid × Bool :=
  (List.range n).foldl (fun acc j => drawRow cx cy j (byteAt m (base + j)) acc) (g, false)

/-- CLR (R200). -/
def execClr (s : State) : Host.Outcome State Fault Refusal :=
  .next (advance { s with fb := blankGrid })

/-- DRW Vx, Vy, n (R202): both origins are read before VF is written; nothing is drawn on a fault. -/
def execDrw (x y : RegIdx) (n : Height) (s : State) : Host.Outcome State Fault Refusal :=
  commit s (match rangeCheck (indexBase s) n.val with
    | .ok _ =>
      let d := drawSprite s.mem (indexBase s) (readReg s x).toNat (readReg s y).toNat n.val s.fb
      .ok (advance (writeFlag { s with fb := d.1 } (collisionFlag d.2)))
    | .error f => .error f)

end Sys2Proof.Machine
end

