-- ==== Sys2Proof/Machine/Immediate.lean ====
section
/-! DEFINITION. Immediate load, immediate add and random (spec/42_immediate_and_random.md). -/

namespace Sys2Proof.Machine

/-- LD Vx, kk (R150). -/
def execLdImm (x : RegIdx) (kk : Byte) (s : State) : Host.Outcome State Fault Refusal :=
  .next (advance (writeReg s x kk))

/-- ADD Vx, kk (R151): modulo 256, no flag. -/
def execAddImm (x : RegIdx) (kk : Byte) (s : State) : Host.Outcome State Fault Refusal :=
  .next (advance (writeReg s x (readReg s x + kk)))

/-- One free draw of a byte (R153): the free value at the counter, and the state with the draw counted. -/
def drawByte (s : State) : Byte × State :=
  (Config.randomByte s.draws, { s with draws := s.draws + 1 })

/-- RND Vx, kk (R152): the immediate plus the drawn byte, modulo 256 (90_conflicts.md C2: an addition, not an AND). -/
def execRnd (x : RegIdx) (kk : Byte) (s : State) : Host.Outcome State Fault Refusal :=
  .next (advance (writeReg (drawByte s).2 x (kk + (drawByte s).1)))

end Sys2Proof.Machine
end

