-- ==== Sys2Proof/Machine/Index.lean ====
section
/-! DEFINITION. Index register and memory transfer instructions (spec/44_index_and_memory.md). Each transfer checks its
whole address range before any byte moves (R180). -/

namespace Sys2Proof.Machine

/-- LD I, nnn (R181). -/
def execLdI (nnn : Addr12) (s : State) : Host.Outcome State Fault Refusal :=
  .next (advance (setIndex s (zextAddr nnn)))

/-- ADD I, Vx (R182): modulo 65536, no flag, no access. -/
def execAddI (x : RegIdx) (s : State) : Host.Outcome State Fault Refusal :=
  .next (advance (setIndex s (s.i + zextByte (readReg s x))))

/-- The address of a glyph (R184): `Vx * 5`, no mask. -/
def glyphAddress (b : Byte) : Word := zextByte b * BitVec.ofNat 16 Config.glyphStride

/-- LD F, Vx (R184). -/
def execLdF (x : RegIdx) (s : State) : Host.Outcome State Fault Refusal :=
  .next (advance (setIndex s (glyphAddress (readReg s x))))

/-- The hundreds, tens and ones digits of a byte, each in a byte of its own (R185). -/
def bcdDigits (b : Byte) : List Byte :=
  [BitVec.ofNat 8 (b.toNat / 100), BitVec.ofNat 8 (b.toNat / 10 % 10), BitVec.ofNat 8 (b.toNat % 10)]

/-- LD B, Vx (R185): three bytes at I; I is unchanged. -/
def execLdB (x : RegIdx) (s : State) : Host.Outcome State Fault Refusal :=
  commit s (match rangeCheck (indexBase s) 3 with
    | .ok _ => .ok (advance { s with mem := storeBytes s.mem (indexBase s) (bcdDigits (readReg s x)) })
    | .error f => .error f)

/-- `I <- I + x + 1` (R186, R187). -/
def advanceIndex (s : State) (x : RegIdx) : State := setIndex s (s.i + BitVec.ofNat 16 (x.val + 1))

/-- LD [I], Vx (R186): V0 to Vx stored from I up, I advanced past them. -/
def execLdMemVx (x : RegIdx) (s : State) : Host.Outcome State Fault Refusal :=
  commit s (match rangeCheck (indexBase s) (x.val + 1) with
    | .ok _ => .ok (advance (advanceIndex { s with mem := storeBytes s.mem (indexBase s) (regValues s x) } x))
    | .error f => .error f)

/-- LD Vx, [I] (R187): V0 to Vx loaded from I up, I advanced past them. -/
def execLdVxMem (x : RegIdx) (s : State) : Host.Outcome State Fault Refusal :=
  commit s (match rangeCheck (indexBase s) (x.val + 1) with
    | .ok _ => .ok (advance (advanceIndex (loadRegs s x) x))
    | .error f => .error f)

end Sys2Proof.Machine
end

