-- ==== Sys2Proof/Machine/Keypad.lean ====
section
/-! DEFINITION. Keypad and timer instructions (spec/46_keypad_and_timers.md). -/

namespace Sys2Proof.Machine

/-! ### Keys -/

/-- The key a register value names: 0 to 15, KeyIndexFault above (R213). -/
def keyOf (b : Byte) : Except Fault KeyIdx :=
  if h : b.toNat < 16 then .ok ⟨b.toNat, h⟩ else .error (.keyIndexFault b)

/-- `K[k]`. -/
def keyPressed (s : State) (k : KeyIdx) : Bool := s.keys[k]

/-- `K[k] <- b`. -/
def setKey (s : State) (k : KeyIdx) (b : Bool) : State := { s with keys := s.keys.set k.val b k.isLt }

/-- SKP Vx (R211): the key stays as it is. -/
def execSkp (x : RegIdx) (s : State) : Host.Outcome State Fault Refusal :=
  commit s (match keyOf (readReg s x) with
    | .ok k => .ok (skipIf (keyPressed s k) s)
    | .error f => .error f)

/-- SKNP Vx (R212). -/
def execSknp (x : RegIdx) (s : State) : Host.Outcome State Fault Refusal :=
  commit s (match keyOf (readReg s x) with
    | .ok k => .ok (skipIf (!keyPressed s k) s)
    | .error f => .error f)

/-- The set P of pressed keys, in rising order (R214). -/
def pressedKeys (s : State) : List KeyIdx := (List.finRange 16).filter (keyPressed s)

/-- Which of the pressed keys `k`, `rest` is reported, and whether that took a free draw (R214): the one key there is;
with several, under `lowest` the first, under `any` the one a free choice picks. -/
def chooseKey (sel : KeySelect) (draw : Nat) (k : KeyIdx) (rest : List KeyIdx) : KeyIdx × Bool :=
  match rest, sel with
  | [], _ => (k, false)
  | _, .lowest => (k, false)
  | _, .any => ((k :: rest).getD (Config.keyChoice draw % (rest.length + 1)) k, true)

/-- The state with one free draw counted, if one was made. -/
def countDraw (s : State) (made : Bool) : State := if made then { s with draws := s.draws + 1 } else s

/-- LD Vx, K (R215): with no key pressed nothing changes, the same instruction is fetched again; else the reported key
goes to Vx and its bit is cleared. -/
def execLdVxK (x : RegIdx) (s : State) : Host.Outcome State Fault Refusal :=
  match pressedKeys s with
  | [] => .next s
  | k :: rest =>
    let c := chooseKey Config.keySelect s.draws k rest
    .next (advance (setKey (writeReg (countDraw s c.2) x (BitVec.ofNat 8 c.1.val)) c.1 false))

/-! ### Timers -/

/-- LD Vx, DT (R216). -/
def execLdVxDt (x : RegIdx) (s : State) : Host.Outcome State Fault Refusal :=
  .next (advance (writeReg s x s.dt))

/-- LD DT, Vx (R217). -/
def execLdDtVx (x : RegIdx) (s : State) : Host.Outcome State Fault Refusal :=
  .next (advance { s with dt := readReg s x })

/-- LD ST, Vx (R218). -/
def execLdStVx (x : RegIdx) (s : State) : Host.Outcome State Fault Refusal :=
  .next (advance { s with st := readReg s x })

end Sys2Proof.Machine
end

