-- ==== Sys2Proof/Machine/Skips.lean ====
section
/-! DEFINITION. Conditional skips on registers (spec/41_skips.md): SE and SNE with an immediate and with a register.
The skipped word is neither fetched nor decoded (R144). -/

namespace Sys2Proof.Machine

/-- SE Vx, kk (R140). -/
def execSeImm (x : RegIdx) (kk : Byte) (s : State) : Host.Outcome State Fault Refusal :=
  .next (skipIf (readReg s x == kk) s)

/-- SNE Vx, kk (R141). -/
def execSneImm (x : RegIdx) (kk : Byte) (s : State) : Host.Outcome State Fault Refusal :=
  .next (skipIf (readReg s x != kk) s)

/-- SE Vx, Vy (R142). -/
def execSeReg (x y : RegIdx) (s : State) : Host.Outcome State Fault Refusal :=
  .next (skipIf (readReg s x == readReg s y) s)

/-- SNE Vx, Vy (R143). -/
def execSneReg (x y : RegIdx) (s : State) : Host.Outcome State Fault Refusal :=
  .next (skipIf (readReg s x != readReg s y) s)

end Sys2Proof.Machine
end

