-- ==== Sys2Proof/WellFormed.lean ====
section
/-! DEFINITION. The checks of well-formedness: an instruction's operand fields fit the widths spec/30_encoding.md R92
gives them, the parameters keep the bounds of spec/00_scope.md R6, and a program image fits (spec/20_memory.md R76). -/

namespace Sys2Proof

/-- An operand field as the opcode table numbers it: its least significant bit in the word, its width, its value. -/
structure Field where
  lo : Nat
  width : Nat
  value : Nat
  deriving DecidableEq, Repr

/-- The value fits the field's width and the field lies inside the 16-bit word. -/
def Field.fits (f : Field) : Bool :=
  f.value < 2 ^ f.width && f.lo + f.width ≤ 16

/-- Field `x`, bits 11:8. -/
def Field.x (r : RegIdx) : Field := ⟨8, 4, r.val⟩
/-- Field `y`, bits 7:4. -/
def Field.y (r : RegIdx) : Field := ⟨4, 4, r.val⟩
/-- Field `n`, bits 3:0. -/
def Field.n (h : Height) : Field := ⟨0, 4, h.val⟩
/-- Field `kk`, bits 7:0. -/
def Field.kk (b : Byte) : Field := ⟨0, 8, b.toNat⟩
/-- Field `nnn`, bits 11:0. -/
def Field.nnn (a : Addr12) : Field := ⟨0, 12, a.toNat⟩

/-- The operand fields of an instruction (R93, R96). -/
def Instr.fields : Instr → List Field
  | .clr | .ret => []
  | .jp a | .call a | .ldI a | .jpV0 a => [.nnn a]
  | .seImm x k | .sneImm x k | .ldImm x k | .addImm x k | .rnd x k => [.x x, .kk k]
  | .seReg x y | .sneReg x y | .ldReg x y | .orReg x y | .andReg x y | .xorReg x y
  | .addReg x y | .subReg x y | .subnReg x y => [.x x, .y y]
  | .drw x y n => [.x x, .y y, .n n]
  | .shr x | .shl x | .skp x | .sknp x | .ldVxDt x | .ldVxK x | .ldDtVx x | .ldStVx x
  | .addI x | .ldF x | .ldB x | .ldMemVx x | .ldVxMem x => [.x x]

/-- Every operand fits its field. The operand types already bound their values, so every term of `Instr` passes
(Sys2Proof.Laws.instr_wf). -/
def Instr.wf (i : Instr) : Bool := i.fields.all Field.fits

/-- The bounds R6 sets on the parameters: a positive depth, a grid no sprite overlaps itself on (R202 (c)), 16 glyphs
of 5 rows. -/
def Params.wf (p : Params) : Bool :=
  0 < p.stackDepth && 8 ≤ p.displayW && 15 ≤ p.displayH
    && p.glyph.length == Config.glyphCount && p.glyph.all (fun g => g.length == Config.glyphStride)

/-- A program image fits between the program base and the end of MEM: at most 3584 bytes (R76). -/
def imageFits (bytes : List Byte) : Bool :=
  Config.programBase + bytes.length ≤ Config.memSize

end Sys2Proof
end

