-- ==== Sys2Proof/Decode.lean ====
section
/-! DEFINITION. Decoding (spec/30_encoding.md R91, R95), the encoder (R93, R96), the opcode map (R96), and the byte order
of an instruction word (spec/20_memory.md R64). Decoding is total: a word is an instruction, or it is refused by the name of
the family of invalid words it belongs to (R100). -/

namespace Sys2Proof

/-! ### Bytes and words -/

/-- The word of two bytes, the byte at the lower address in bits 15:8 (R64). -/
def wordOfBytes (hi lo : Byte) : Word := hi ++ lo

/-- Bits 15:8, the byte stored at the lower address (R64). -/
def hiByte (w : Word) : Byte := w.extractLsb' 8 8

/-- Bits 7:0, the byte stored at the higher address (R64). -/
def loByte (w : Word) : Byte := w.extractLsb' 0 8

/-! ### The fields of R92 -/

def opField (w : Word) : BitVec 4 := w.extractLsb' 12 4
def xField (w : Word) : RegIdx := (w.extractLsb' 8 4).toFin
def yField (w : Word) : RegIdx := (w.extractLsb' 4 4).toFin
def nField (w : Word) : Height := (w.extractLsb' 0 4).toFin
def kkField (w : Word) : Byte := w.extractLsb' 0 8
def nnnField (w : Word) : Addr12 := w.extractLsb' 0 12

/-! ### Decoding -/

/-- Why bytes are no instruction: one constructor for each family of invalid words of R100, and `truncated` for
fewer than the two bytes every instruction has (R90). -/
inductive DecodeError where
  | truncated
  | family0 (w : Word)
  | family5 (w : Word)
  | family8 (w : Word)
  | family9 (w : Word)
  | familyE (w : Word)
  | familyF (w : Word)
  deriving DecidableEq, Repr

/-- Family 0x0, matched on all 16 bits (R95, R97). -/
def decodeFamily0 (w : Word) : Except DecodeError Instr :=
  if w = 0x00E0#16 then .ok .clr
  else if w = 0x00EE#16 then .ok .ret
  else .error (.family0 w)

/-- Family 0x8, selected by `n` (R98). -/
def decodeFamily8 (w : Word) : Except DecodeError Instr :=
  match (nField w).val with
  | 0x0 => .ok (.ldReg (xField w) (yField w))
  | 0x1 => .ok (.orReg (xField w) (yField w))
  | 0x2 => .ok (.andReg (xField w) (yField w))
  | 0x3 => .ok (.xorReg (xField w) (yField w))
  | 0x4 => .ok (.addReg (xField w) (yField w))
  | 0x5 => .ok (.subReg (xField w) (yField w))
  | 0x6 => .ok (.shr (xField w))
  | 0x7 => .ok (.subnReg (xField w) (yField w))
  | 0xE => .ok (.shl (xField w))
  | _ => .error (.family8 w)

/-- Family 0xE, selected by `kk` (R99). -/
def decodeFamilyE (w : Word) : Except DecodeError Instr :=
  match (kkField w).toNat with
  | 0x9E => .ok (.skp (xField w))
  | 0xA1 => .ok (.sknp (xField w))
  | _ => .error (.familyE w)

/-- Family 0xF, selected by `kk` (R99). -/
def decodeFamilyF (w : Word) : Except DecodeError Instr :=
  match (kkField w).toNat with
  | 0x07 => .ok (.ldVxDt (xField w))
  | 0x0A => .ok (.ldVxK (xField w))
  | 0x15 => .ok (.ldDtVx (xField w))
  | 0x18 => .ok (.ldStVx (xField w))
  | 0x1E => .ok (.addI (xField w))
  | 0x29 => .ok (.ldF (xField w))
  | 0x33 => .ok (.ldB (xField w))
  | 0x55 => .ok (.ldMemVx (xField w))
  | 0x65 => .ok (.ldVxMem (xField w))
  | _ => .error (.familyF w)

/-- The decode procedure of R95: by the top nibble, then by the family's own selector. The last arm is family 0xF, the
one value of a nibble that is left. -/
def decode (w : Word) : Except DecodeError Instr :=
  match (opField w).toNat with
  | 0x0 => decodeFamily0 w
  | 0x1 => .ok (.jp (nnnField w))
  | 0x2 => .ok (.call (nnnField w))
  | 0x3 => .ok (.seImm (xField w) (kkField w))
  | 0x4 => .ok (.sneImm (xField w) (kkField w))
  | 0x5 => if nField w = 0 then .ok (.seReg (xField w) (yField w)) else .error (.family5 w)
  | 0x6 => .ok (.ldImm (xField w) (kkField w))
  | 0x7 => .ok (.addImm (xField w) (kkField w))
  | 0x8 => decodeFamily8 w
  | 0x9 => if nField w = 0 then .ok (.sneReg (xField w) (yField w)) else .error (.family9 w)
  | 0xA => .ok (.ldI (nnnField w))
  | 0xB => .ok (.jpV0 (nnnField w))
  | 0xC => .ok (.rnd (xField w) (kkField w))
  | 0xD => .ok (.drw (xField w) (yField w) (nField w))
  | 0xE => decodeFamilyE w
  | _ => decodeFamilyF w

/-- Decoding at the front of a byte sequence: the first two bytes, high byte first, and the rest (R64, R90). -/
def decodeBytes : List Byte → Except DecodeError (Instr × List Byte)
  | hi :: lo :: rest =>
    match decode (wordOfBytes hi lo) with
    | .ok i => .ok (i, rest)
    | .error e => .error e
  | _ => .error .truncated

/-! ### Encoding: the formats of R93 -/

def bits4 (r : Fin 16) : BitVec 4 := BitVec.ofFin r

/-- Format NNN: op, nnn. -/
def formNNN (op : BitVec 4) (nnn : Addr12) : Word := op ++ nnn
/-- Format XKK: op, x, kk. -/
def formXKK (op : BitVec 4) (x : RegIdx) (kk : Byte) : Word := op ++ bits4 x ++ kk
/-- Format XY: op, x, y and a fixed low nibble; with a height for the low nibble, format XYN. -/
def formXY (op : BitVec 4) (x y : RegIdx) (low : BitVec 4) : Word := op ++ bits4 x ++ bits4 y ++ low
/-- Format X: op, x and a fixed low byte. -/
def formX (op : BitVec 4) (x : RegIdx) (low : Byte) : Word := op ++ bits4 x ++ low

/-- The word of an instruction, by the patterns of R96; the ignored field `y` of SHR and SHL is written as 0, as R107
has the assembler write it. -/
def encode : Instr → Word
  | .clr => 0x00E0#16
  | .ret => 0x00EE#16
  | .jp a => formNNN 0x1#4 a
  | .call a => formNNN 0x2#4 a
  | .seImm x k => formXKK 0x3#4 x k
  | .sneImm x k => formXKK 0x4#4 x k
  | .seReg x y => formXY 0x5#4 x y 0x0#4
  | .ldImm x k => formXKK 0x6#4 x k
  | .addImm x k => formXKK 0x7#4 x k
  | .ldReg x y => formXY 0x8#4 x y 0x0#4
  | .orReg x y => formXY 0x8#4 x y 0x1#4
  | .andReg x y => formXY 0x8#4 x y 0x2#4
  | .xorReg x y => formXY 0x8#4 x y 0x3#4
  | .addReg x y => formXY 0x8#4 x y 0x4#4
  | .subReg x y => formXY 0x8#4 x y 0x5#4
  | .shr x => formXY 0x8#4 x 0 0x6#4
  | .subnReg x y => formXY 0x8#4 x y 0x7#4
  | .shl x => formXY 0x8#4 x 0 0xE#4
  | .sneReg x y => formXY 0x9#4 x y 0x0#4
  | .ldI a => formNNN 0xA#4 a
  | .jpV0 a => formNNN 0xB#4 a
  | .rnd x k => formXKK 0xC#4 x k
  | .drw x y n => formXY 0xD#4 x y (bits4 n)
  | .skp x => formX 0xE#4 x 0x9E#8
  | .sknp x => formX 0xE#4 x 0xA1#8
  | .ldVxDt x => formX 0xF#4 x 0x07#8
  | .ldVxK x => formX 0xF#4 x 0x0A#8
  | .ldDtVx x => formX 0xF#4 x 0x15#8
  | .ldStVx x => formX 0xF#4 x 0x18#8
  | .addI x => formX 0xF#4 x 0x1E#8
  | .ldF x => formX 0xF#4 x 0x29#8
  | .ldB x => formX 0xF#4 x 0x33#8
  | .ldMemVx x => formX 0xF#4 x 0x55#8
  | .ldVxMem x => formX 0xF#4 x 0x65#8

/-- The bytes of an instruction in memory order (R64, R90). -/
def encodeBytes (i : Instr) : List Byte := [hiByte (encode i), loByte (encode i)]

/-! ### The opcode map of R96 -/

/-- A row of the opcode map: `w` is the row's instruction exactly when `w &&& mask = value`. -/
structure OpRow where
  mask : Word
  value : Word
  deriving DecidableEq, Repr

/-- The row of R96 an instruction belongs to. -/
def rowOf : Instr → OpRow
  | .clr => ⟨0xFFFF#16, 0x00E0#16⟩
  | .ret => ⟨0xFFFF#16, 0x00EE#16⟩
  | .jp _ => ⟨0xF000#16, 0x1000#16⟩
  | .call _ => ⟨0xF000#16, 0x2000#16⟩
  | .seImm _ _ => ⟨0xF000#16, 0x3000#16⟩
  | .sneImm _ _ => ⟨0xF000#16, 0x4000#16⟩
  | .seReg _ _ => ⟨0xF00F#16, 0x5000#16⟩
  | .ldImm _ _ => ⟨0xF000#16, 0x6000#16⟩
  | .addImm _ _ => ⟨0xF000#16, 0x7000#16⟩
  | .ldReg _ _ => ⟨0xF00F#16, 0x8000#16⟩
  | .orReg _ _ => ⟨0xF00F#16, 0x8001#16⟩
  | .andReg _ _ => ⟨0xF00F#16, 0x8002#16⟩
  | .xorReg _ _ => ⟨0xF00F#16, 0x8003#16⟩
  | .addReg _ _ => ⟨0xF00F#16, 0x8004#16⟩
  | .subReg _ _ => ⟨0xF00F#16, 0x8005#16⟩
  | .shr _ => ⟨0xF00F#16, 0x8006#16⟩
  | .subnReg _ _ => ⟨0xF00F#16, 0x8007#16⟩
  | .shl _ => ⟨0xF00F#16, 0x800E#16⟩
  | .sneReg _ _ => ⟨0xF00F#16, 0x9000#16⟩
  | .ldI _ => ⟨0xF000#16, 0xA000#16⟩
  | .jpV0 _ => ⟨0xF000#16, 0xB000#16⟩
  | .rnd _ _ => ⟨0xF000#16, 0xC000#16⟩
  | .drw _ _ _ => ⟨0xF000#16, 0xD000#16⟩
  | .skp _ => ⟨0xF0FF#16, 0xE09E#16⟩
  | .sknp _ => ⟨0xF0FF#16, 0xE0A1#16⟩
  | .ldVxDt _ => ⟨0xF0FF#16, 0xF007#16⟩
  | .ldVxK _ => ⟨0xF0FF#16, 0xF00A#16⟩
  | .ldDtVx _ => ⟨0xF0FF#16, 0xF015#16⟩
  | .ldStVx _ => ⟨0xF0FF#16, 0xF018#16⟩
  | .addI _ => ⟨0xF0FF#16, 0xF01E#16⟩
  | .ldF _ => ⟨0xF0FF#16, 0xF029#16⟩
  | .ldB _ => ⟨0xF0FF#16, 0xF033#16⟩
  | .ldMemVx _ => ⟨0xF0FF#16, 0xF055#16⟩
  | .ldVxMem _ => ⟨0xF0FF#16, 0xF065#16⟩

/-- One instruction of each row, all operands zero, in the order of R96. -/
def rowSamples : List Instr :=
  [.clr, .ret, .jp 0, .call 0, .seImm 0 0, .sneImm 0 0, .seReg 0 0, .ldImm 0 0, .addImm 0 0]
  ++ [.ldReg 0 0, .orReg 0 0, .andReg 0 0, .xorReg 0 0, .addReg 0 0, .subReg 0 0, .shr 0, .subnReg 0 0, .shl 0]
  ++ [.sneReg 0 0, .ldI 0, .jpV0 0, .rnd 0 0, .drw 0 0 0, .skp 0, .sknp 0]
  ++ [.ldVxDt 0, .ldVxK 0, .ldDtVx 0, .ldStVx 0, .addI 0, .ldF 0, .ldB 0, .ldMemVx 0, .ldVxMem 0]

/-- The 34 rows of R96, in its order. -/
def opcodeMap : List OpRow := rowSamples.map rowOf

/-! ### The host's decoding entry -/

/-- The table's numbering puts bit 15 of an instruction's one 16-bit word at bit 15 (R92, R96), and memory holds the word
high byte first (R64). Every bit above `nbits` is 0. -/
def tableWord (nbits w : Nat) : Word := BitVec.ofNat 16 (w % 2 ^ nbits)

/-- The bytes, in memory order, of the instruction whose table bits are `w`. -/
def tableWordBytes (nbits w : Nat) : List Byte :=
  [hiByte (tableWord nbits w), loByte (tableWord nbits w)]

/-- The instruction the decoder reads from those bytes, none where it refuses them. -/
def decodeTableWord (nbits w : Nat) : Option Instr :=
  match decodeBytes (tableWordBytes nbits w) with
  | .ok (i, _) => some i
  | .error _ => none

end Sys2Proof
end

