-- ==== Sys2Proof/Machine/Fetch.lean ====
section
/-! DEFINITION. The front of the instruction cycle (spec/40_cycle_and_control_transfer.md R120 to R122): the halted
test, the fetch, the decode and the faults they raise, in the order of spec/60_exceptions.md R239. -/

namespace Sys2Proof.Machine

/-- STATUS.HALTED = 1: a step does nothing (R120). -/
def isHalted (s : State) : Bool := s.status.halted

/-- `fetch(PC)` (R121): the bytes at PC and PC + 1, in that order, as integers that never wrap; high byte first. -/
def fetch (s : State) : Except Fault Word :=
  match memRead s.mem s.pc.toNat with
  | .error f => .error f
  | .ok hi =>
    match memRead s.mem (s.pc.toNat + 1) with
    | .error f => .error f
    | .ok lo => .ok (wordOfBytes hi lo)

/-- `decode(w)`, with a word the decoder refuses raised as InvalidOpcode (R122, R232). -/
def decodeOrFault (w : Word) : Except Fault Instr :=
  match decode w with
  | .ok i => .ok i
  | .error _ => .error (.invalidOpcode w)

/-- Fetch, then decode (R120, R239). -/
def nextInstr (s : State) : Except Fault Instr :=
  match fetch s with
  | .error f => .error f
  | .ok w => decodeOrFault w

/-- A state with the bytes of a word placed where the next fetch reads, high byte first; addresses from 4096 up do not
exist and take no byte. -/
def placeAtPc (s : State) (w : Word) : State :=
  { s with mem :=
      (match memWrite s.mem s.pc.toNat (hiByte w) with
       | .error _ => s.mem
       | .ok m =>
         match memWrite m (s.pc.toNat + 1) (loByte w) with
         | .error _ => m
         | .ok m' => m') }

end Sys2Proof.Machine
end

