-- ==== Sys2Proof/Machine/Step.lean ====
section
/-! DEFINITION. The `step` event (spec/40_cycle_and_control_transfer.md R120): one instruction, or one fault, or nothing on
a halted core. The timer tick is no part of it. -/

namespace Sys2Proof.Machine

/-- One step (R120). -/
def step (s : State) : Host.Outcome State Fault Refusal :=
  if isHalted s then .next s
  else
    match nextInstr s with
    | .ok i => exec i s
    | .error f => .next (takeFault f s)

/-- `s` with the instruction whose table bits are `w` stored at PC, where the next step fetches it (log entry 14). -/
def State.withFetchWord (s : State) (nbits w : Nat) : State := placeAtPc s (tableWord nbits w)

end Sys2Proof.Machine
end

