-- ==== Sys2Proof/Machine/Events.lean ====
section
/-! DEFINITION. The moves of the agents around the CPU engine (spec/00_scope.md R12): `tick`, `key_set` and `load`. The
`reset` event stands beside taking a fault in Machine/Ops. -/

namespace Sys2Proof.Machine

/-- A countdown stops at zero (R219). -/
def countDown (t : Byte) : Byte := if t = 0 then 0 else t - 1

/-- `tick` (R219): both timers count down once, nothing else changes, halted or not. -/
def tickEvent (s : State) : State := { s with dt := countDown s.dt, st := countDown s.st }

/-- `key_set(k, b)` (R220). -/
def keySetEvent (k : KeyIdx) (b : Bool) (s : State) : State := setKey s k b

/-- `load(bytes)` (R76): the image at the program base, nothing else changed, PC not touched; an image that does not fit
raises LoadOverflow, and MEM is unchanged (R238). -/
def loadEvent (bytes : List Byte) (s : State) : State :=
  if imageFits bytes then { s with mem := storeBytes s.mem Config.programBase bytes }
  else takeFault .loadOverflow s

end Sys2Proof.Machine
end

