-- ==== Sys2Proof/Machine/System.lean ====
section
/-! DEFINITION. The CORE with the agents around it (spec/00_scope.md R12): the events, atomic and in any order, and runs
over a list of them. -/

namespace Sys2Proof.Machine

/-- An event of R12. -/
inductive Event where
  /-- the host's `reset` (R260) -/
  | reset
  /-- the host's `load(bytes)` (R76) -/
  | load (bytes : List Byte)
  /-- the CPU engine's `step` (R120) -/
  | step
  /-- the tick source's `tick` (R219) -/
  | tick
  /-- the keypad's `key_set(k, b)` (R220) -/
  | keySet (k : KeyIdx) (b : Bool)
  deriving DecidableEq, Repr

/-- What an event does to the CORE, as the outcome of a step gives it. -/
def eventOutcome (e : Event) (s : State) : Host.Outcome State Fault Refusal :=
  match e with
  | .reset => .next (resetEvent s)
  | .load bytes => .next (loadEvent bytes s)
  | .step => step s
  | .tick => .next (tickEvent s)
  | .keySet k b => .next (keySetEvent k b s)

/-- The CORE and the one thing the host's rule on `load` needs to know of the past: whether a step has been taken since
the last reset (R77). It is no state of the CORE. -/
structure System where
  core : State
  stepped : Bool
  deriving DecidableEq, Repr

/-- Right after a reset (R263). -/
def System.start : System := { core := State.reset, stepped := false }

/-- Whether an event leaves a step taken since the last reset behind it. -/
def steppedAfter (e : Event) (before : Bool) : Bool :=
  match e with
  | .reset => false
  | .step => true
  | .load _ | .tick | .keySet _ _ => before

/-- The host has no `load` move once a step has been taken since the last reset (R77); every other event may come at any
time (R12, R260). -/
def mayHappen (e : Event) (y : System) : Bool :=
  match e with
  | .load _ => !y.stepped
  | .reset | .step | .tick | .keySet _ _ => true

/-- One event's move: none if the event has no move, or if the CORE gives no next state. -/
def systemMove (e : Event) (y : System) : Option System :=
  if mayHappen e y then
    match eventOutcome e y.core with
    | .next s => some { core := s, stepped := steppedAfter e y.stepped }
    | .fault _ | .refused _ => none
  else none

/-- A run: the events in order, each an atomic move (R12). -/
def runEvents : List Event → System → Option System
  | [], y => some y
  | e :: rest, y =>
    match systemMove e y with
    | some y' => runEvents rest y'
    | none => none

end Sys2Proof.Machine
end

