-- ==== Sys2Proof/Safety.lean ====
section
/-! DEFINITION. The terms statements are made in: what two states share, the rules of spec/ that say which state an
instruction may write and where PC goes, the invariant of a running core, and the ends of a run (spec/70_reset_and_hazards.md
R265). -/

namespace Sys2Proof.Safety

open Sys2Proof.Machine

/-! ### What two states share -/

/-- The pieces of state of R20, and the model's counter of draws. -/
inductive Part where
  | v | i | pc | sp | stack | dt | st | keys | fb | mem | status | draws
  deriving DecidableEq, Repr

/-- A piece of state is the same in two states; memory is, if every byte reads the same. -/
def Same : Part → State → State → Prop
  | .v, s, t => ∀ r, readReg t r = readReg s r
  | .i, s, t => t.i = s.i
  | .pc, s, t => t.pc = s.pc
  | .sp, s, t => t.sp = s.sp
  | .stack, s, t => t.stack = s.stack
  | .dt, s, t => t.dt = s.dt
  | .st, s, t => t.st = s.st
  | .keys, s, t => t.keys = s.keys
  | .fb, s, t => t.fb = s.fb
  | .mem, s, t => ∀ a, byteAt t.mem a = byteAt s.mem a
  | .status, s, t => t.status = s.status
  | .draws, s, t => t.draws = s.draws

/-- `t` is `s` in every piece of state but those listed. -/
def KeepsExcept (parts : List Part) (s t : State) : Prop := ∀ p, p ∉ parts → Same p s t

/-- `t` has the general registers of `s` but those listed. -/
def RegsExcept (regs : List RegIdx) (s t : State) : Prop := ∀ r, r ∉ regs → readReg t r = readReg s r

/-- Every byte of memory outside the `len` bytes from `base` up reads in `t` as in `s`. -/
def MemExcept (base len : Nat) (s t : State) : Prop :=
  ∀ a, a < base ∨ base + len ≤ a → byteAt t.mem a = byteAt s.mem a

/-- The entries of the call stack that are live (R29) are the same up to a depth. -/
def LiveSame (depth : Nat) (s t : State) : Prop :=
  ∀ j : Fin Config.stackDepth, j.val < depth → t.stack[j] = s.stack[j]

/-! ### Tables of the spec over all instructions -/

/-- The pieces of state an instruction may write when it does not fault (R22 to R34, R61); every one may write PC. -/
def partsWritten : Instr → List Part
  | .clr => [.pc, .fb]
  | .ret => [.pc, .sp]
  | .call _ => [.pc, .sp, .stack]
  | .jp _ | .jpV0 _ | .seImm _ _ | .sneImm _ _ | .seReg _ _ | .sneReg _ _ | .skp _ | .sknp _ => [.pc]
  | .ldImm _ _ | .addImm _ _ | .ldReg _ _ | .orReg _ _ | .andReg _ _ | .xorReg _ _ | .addReg _ _ | .subReg _ _
  | .shr _ | .subnReg _ _ | .shl _ | .ldVxDt _ => [.pc, .v]
  | .rnd _ _ => [.pc, .v, .draws]
  | .ldI _ | .addI _ | .ldF _ => [.pc, .i]
  | .drw _ _ _ => [.pc, .v, .fb]
  | .ldVxK _ => [.pc, .v, .keys, .draws]
  | .ldDtVx _ => [.pc, .dt]
  | .ldStVx _ => [.pc, .st]
  | .ldB _ => [.pc, .mem]
  | .ldMemVx _ => [.pc, .mem, .i]
  | .ldVxMem _ => [.pc, .v, .i]

/-- The general registers an instruction may write: the last column of R22. -/
def regsWritten : Instr → List RegIdx
  | .ldImm x _ | .addImm x _ | .ldReg x _ | .orReg x _ | .andReg x _ | .xorReg x _ | .rnd x _ | .ldVxDt x
  | .ldVxK x => [x]
  | .addReg x _ | .subReg x _ | .subnReg x _ | .shr x | .shl x => [x, 15]
  | .drw _ _ _ => [15]
  | .ldVxMem x => regsUpTo x
  | .clr | .ret | .jp _ | .call _ | .seImm _ _ | .sneImm _ _ | .seReg _ _ | .sneReg _ _ | .ldI _ | .jpV0 _
  | .skp _ | .sknp _ | .ldDtVx _ | .ldStVx _ | .addI _ | .ldF _ | .ldB _ | .ldMemVx _ => []

/-- When an instruction faults, once decoded (R231, R239): each has at most one check of its own. -/
def FaultsWhen (s : State) : Instr → Prop
  | .ret => s.sp.val = 0
  | .call _ => s.sp.val = Config.stackDepth
  | .skp x | .sknp x => 15 < (readReg s x).toNat
  | .drw _ _ n => 0 < n.val ∧ 4096 < s.i.toNat + n.val
  | .ldB _ => 4096 < s.i.toNat + 3
  | .ldMemVx x | .ldVxMem x => 4096 < s.i.toNat + (x.val + 1)
  | .clr | .jp _ | .seImm _ _ | .sneImm _ _ | .seReg _ _ | .ldImm _ _ | .addImm _ _ | .ldReg _ _ | .orReg _ _
  | .andReg _ _ | .xorReg _ _ | .addReg _ _ | .subReg _ _ | .shr _ | .subnReg _ _ | .shl _ | .sneReg _ _
  | .ldI _ | .jpV0 _ | .rnd _ _ | .ldVxDt _ | .ldVxK _ | .ldDtVx _ | .ldStVx _ | .addI _ | .ldF _ => False

/-- The word at an address, high byte at the lower address (R64). -/
def wordAt (m : Memory) (a : Nat) : Word := wordOfBytes (byteAt m a) (byteAt m (a + 1))

/-- A sprite of `n` rows at `base`, drawn with its top-left pixel at column `cx`, row `cy`, has a 1 bit that lands on
pixel (r, c), both coordinates wrapped (R201, R202). -/
def SpriteCovers (m : Memory) (base cx cy n r c : Nat) : Prop :=
  ∃ j i, j < n ∧ i < 8 ∧ (byteAt m (base + j)).getLsbD (7 - i) = true
    ∧ (cy + j) % Config.displayH = r ∧ (cx + i) % Config.displayW = c

/-! ### The invariant of the core -/

/-- What holds of the CORE after every event: memory in canonical form; PC within the bound of R28; every live return
address within the bound of R126; STATUS clear while the core runs, and a cause of R231 with an INFO of at most 65535 once
it is halted. -/
abbrev CoreInv (s : State) : Prop :=
  Memory.wf s.mem = true
    ∧ s.pc.toNat ≤ 0x10FE
    ∧ (∀ j : Fin Config.stackDepth, j.val < s.sp.val → (s.stack[j]).toNat ≤ 0x1000)
    ∧ (s.status.halted = false → s.status.cause = 0 ∧ s.status.info = 0)
    ∧ (s.status.halted = true →
        1 ≤ s.status.cause.toNat ∧ s.status.cause.toNat ≤ 6 ∧ s.status.info.toNat ≤ 0xFFFF)

/-! ### Ends of a run (R265) -/

/-- Parked: PC holds the address of a jump to itself. A parked core that runs is the spec's one good end. -/
abbrev Parked (s : State) : Prop :=
  s.pc.toNat ≤ 0xFFE ∧ wordAt s.mem s.pc.toNat = 0x1000#16 ||| s.pc

/-- Waiting: PC at an Fx0A and no key pressed. No end: a key_set lets it go on. -/
abbrev Waiting (s : State) : Prop :=
  s.pc.toNat ≤ 0xFFE ∧ (∃ x : RegIdx, wordAt s.mem s.pc.toNat = formX 0xF#4 x 0x0A#8)
    ∧ ∀ k : KeyIdx, keyPressed s k = false

/-- A safe end of a run: the core has taken no fault and is parked. A halted core is never a good end (R236, R265). -/
abbrev GoodEnd (s : State) : Prop := s.status.halted = false ∧ Parked s

end Sys2Proof.Safety
end

