-- ==== Sys2Proof/Certificates/Slice0/Obligations.lean ====
section
/-! DEFINITION. The statements for the provers. Each docstring names the rule of spec/ the statement formalises. A
statement that rests on a decision of spec/92_eei_decisions.md (D<n>), on a passage the spec marks as derived or as general
knowledge, or on an entry of the assumption log, says so. -/

open Sys2Proof Sys2Proof.Machine Sys2Proof.Safety

/-! ### Encoding -/

/-- Every well-formed instruction is read back from its word, and from its two bytes with any bytes after them
(30_encoding.md sections 1 and 4; that SHR and SHL carry no `y` is log entry 12). -/
def Obligations.DecodeOfEncode : Prop :=
  ∀ (i : Instr) (rest : List Byte), i.wf = true →
    decode (encode i) = .ok i ∧ decodeBytes (encodeBytes i ++ rest) = .ok (i, rest)

/-- No bit of a valid word is lost: encoding what it decodes to gives the word back, or, for SHR and SHL, the word with
the ignored nibble `y` at 0 (30_encoding.md sections 4 and 5; log entry 12). -/
def Obligations.EncodeOfDecode : Prop :=
  ∀ (w : Word) (i : Instr), decode w = .ok i →
    ((∃ x, i = .shr x ∨ i = .shl x) → encode i = w &&& 0xFF0F#16)
      ∧ ((∀ x, i ≠ .shr x ∧ i ≠ .shl x) → encode i = w)

/-- The opcode map: 34 rows; a word decodes to an instruction of a row exactly when its masked bits are the row's; no two
rows match the same word (R96; exact selectors are the spec's decision D19). -/
def Obligations.DecodeFollowsOpcodeMap : Prop :=
  opcodeMap.length = 34
    ∧ (∀ (w : Word) (j : Instr),
        (∃ i, decode w = .ok i ∧ rowOf i = rowOf j) ↔ w &&& (rowOf j).mask = (rowOf j).value)
    ∧ (∀ (w : Word) (r r' : OpRow), r ∈ opcodeMap → r' ∈ opcodeMap →
        w &&& r.mask = r.value → w &&& r'.mask = r'.value → r = r')

/-- The invalid words are exactly those of the table of R100, family by family (the spec's decision D19). -/
def Obligations.InvalidWordsExactly : Prop :=
  ∀ w : Word, (∃ e, decode w = .error e) ↔
    (w.toNat / 4096 = 0x0 ∧ w.toNat ≠ 0x00E0 ∧ w.toNat ≠ 0x00EE)
      ∨ (w.toNat / 4096 = 0x5 ∧ w.toNat % 16 ≠ 0)
      ∨ (w.toNat / 4096 = 0x8 ∧ w.toNat % 16 ∈ [0x8, 0x9, 0xA, 0xB, 0xC, 0xD, 0xF])
      ∨ (w.toNat / 4096 = 0x9 ∧ w.toNat % 16 ≠ 0)
      ∨ (w.toNat / 4096 = 0xE ∧ w.toNat % 256 ∉ [0x9E, 0xA1])
      ∨ (w.toNat / 4096 = 0xF ∧
          w.toNat % 256 ∉ [0x07, 0x0A, 0x15, 0x18, 0x1E, 0x29, 0x33, 0x55, 0x65])

/-- R104: in 8xy6 and 8xyE all 16 values of `y` give the same instruction; no other instruction has an ignored field,
so no other instruction has two words. -/
def Obligations.OnlyShiftsIgnoreAField : Prop :=
  (∀ x y : RegIdx, decode (formXY 0x8#4 x y 0x6#4) = .ok (.shr x) ∧ decode (formXY 0x8#4 x y 0xE#4) = .ok (.shl x))
    ∧ (∀ (w w' : Word) (i : Instr), decode w = .ok i → decode w' = .ok i →
        (∀ x, i ≠ .shr x ∧ i ≠ .shl x) → w = w')

/-- A few words read as spec/95_test_vectors.md reads them, and a few it lists as invalid. -/
def Obligations.SampleWordsDecode : Prop :=
  decode 0x1206#16 = .ok (.jp 0x206#12) ∧ decode 0x00EE#16 = .ok .ret ∧ decode 0x3F01#16 = .ok (.seImm 15 0x01#8)
    ∧ decode 0x6005#16 = .ok (.ldImm 0 0x05#8) ∧ decode 0x8014#16 = .ok (.addReg 0 1)
    ∧ decode 0x807E#16 = .ok (.shl 0) ∧ decode 0xF21E#16 = .ok (.addI 2) ∧ decode 0xD012#16 = .ok (.drw 0 1 2)
    ∧ decode 0xE59E#16 = .ok (.skp 5) ∧ decode 0xF265#16 = .ok (.ldVxMem 2)
    ∧ decode 0x01E0#16 = .error (.family0 0x01E0#16) ∧ decode 0x5011#16 = .error (.family5 0x5011#16)
    ∧ decode 0x800F#16 = .error (.family8 0x800F#16) ∧ decode 0xF075#16 = .error (.familyF 0xF075#16)

/-! ### The instruction cycle and faults -/

/-- A step of a core that runs is exec of the instruction the bytes at PC and PC + 1 decode to, high byte first, PC of any
parity; nothing is added around it (40_cycle_and_control_transfer.md section 1; decisions D1, D2, D4). -/
def Obligations.StepRunsDecodedInstruction : Prop :=
  ∀ (s : State) (hi lo : Byte) (i : Instr), s.status.halted = false → s.pc.toNat ≤ 0xFFE →
    byteAt s.mem s.pc.toNat = hi → byteAt s.mem (s.pc.toNat + 1) = lo → decodeBytes [hi, lo] = .ok (i, []) →
    i.wf = true ∧ step s = exec i s

/-- A fetch that would read at 4096 or above: AddressFault of PC, or of 4096 from PC = 0xFFF; nothing else changes (R121,
R234; decision D2). -/
def Obligations.FetchFaultBeyondMemory : Prop :=
  ∀ s : State, s.status.halted = false → 0xFFF ≤ s.pc.toNat →
    ∃ t, step s = .next t ∧ t.status.halted = true ∧ t.status.cause = 3
      ∧ t.status.info.toNat = (if s.pc.toNat = 0xFFF then 4096 else s.pc.toNat) ∧ KeepsExcept [.status] s t

/-- A fetched word that is no instruction: InvalidOpcode, INFO the word, PC at the word, nothing else changed (R232; the
recording in STATUS is decision D20). -/
def Obligations.InvalidOpcodeHalts : Prop :=
  ∀ (s : State) (e : DecodeError), s.status.halted = false → s.pc.toNat ≤ 0xFFE →
    decode (wordAt s.mem s.pc.toNat) = .error e →
    ∃ t, step s = .next t ∧ t.status.halted = true ∧ t.status.cause = 1
      ∧ t.status.info.toNat = (wordAt s.mem s.pc.toNat).toNat ∧ KeepsExcept [.status] s t

/-- The word placed for the next fetch is the one the next step runs, and every other byte is as it was (log entry
14). -/
def Obligations.PlacedWordIsRun : Prop :=
  ∀ (s : State) (w : Nat) (i : Instr), s.status.halted = false → s.pc.toNat ≤ 0xFFE →
    decodeTableWord 16 w = some i →
    step (s.withFetchWord 16 w) = exec i (s.withFetchWord 16 w)
      ∧ KeepsExcept [.mem] s (s.withFetchWord 16 w) ∧ MemExcept s.pc.toNat 2 s (s.withFetchWord 16 w)

/-- Every step answers a next state: it completes an instruction, takes a fault, or does nothing on a halted core; and
every event that may happen has its move (93_implementation_defined.md part 1: no behaviour is left as stuck; decision
D20). -/
def Obligations.EveryStepAnswers : Prop :=
  (∀ s : State, ∃ t, step s = .next t)
    ∧ (∀ (i : Instr) (s : State), ∃ t, exec i s = .next t)
    ∧ (∀ (e : Event) (y : System), mayHappen e y = true → ∃ y', systemMove e y = some y')

/-- Once decoded, an instruction faults exactly under its own check: SP = 0 for RET, SP = STACK_DEPTH for CALL, Vx > 15
for SKP and SKNP, an address of 4096 or more for DRW, LD B, LD [I] and LD Vx,[I]; no other instruction faults (R231, R239;
decisions D2, D5, D14). -/
def Obligations.FaultsExactlyUnderOwnCheck : Prop :=
  ∀ (i : Instr) (s : State), s.status.halted = false →
    ∃ t, exec i s = .next t ∧ (t.status ≠ s.status ↔ FaultsWhen s i)

/-- Faults are precise: a step that changes STATUS started from a running core, leaves it halted, and changes nothing
else, PC included (R236; decisions D20, D25). -/
def Obligations.FaultsArePrecise : Prop :=
  ∀ s t : State, step s = .next t → t.status ≠ s.status →
    s.status.halted = false ∧ t.status.halted = true ∧ KeepsExcept [.status] s t

/-- RET on an empty stack and CALL on a full one: what STATUS records (R231, R233, R235; decisions D5, D20; STACK_DEPTH is
16 by log entry 1). -/
def Obligations.StackFaultsRecorded : Prop :=
  (∀ s : State, s.sp.val = 0 →
      ∃ t, exec .ret s = .next t ∧ t.status = ⟨true, 2, 0⟩ ∧ KeepsExcept [.status] s t)
    ∧ (∀ (a : Addr12) (s : State), s.sp.val = 16 →
      ∃ t, exec (.call a) s = .next t ∧ t.status = ⟨true, 4, 16⟩ ∧ KeepsExcept [.status] s t)

/-- SKP and SKNP with a key number above 15: KeyIndexFault with INFO the value of Vx (R213, R237; decision D14). -/
def Obligations.KeyIndexFaultRecorded : Prop :=
  ∀ (x : RegIdx) (s : State), 15 < (readReg s x).toNat →
    (∃ t, exec (.skp x) s = .next t ∧ t.status.halted = true ∧ t.status.cause = 5
      ∧ t.status.info.toNat = (readReg s x).toNat ∧ KeepsExcept [.status] s t)
    ∧ (∃ t, exec (.sknp x) s = .next t ∧ t.status.halted = true ∧ t.status.cause = 5
      ∧ t.status.info.toNat = (readReg s x).toNat ∧ KeepsExcept [.status] s t)

/-- DRW, LD B, LD [I] and LD Vx,[I] over the end of memory: AddressFault of max(I, 4096), no byte moved, I and VF as they
were (R180, R234; decisions D2, D25). -/
def Obligations.RangeFaultRecorded : Prop :=
  ∀ (i : Instr) (s : State),
    (match i with
      | .drw _ _ n => 0 < n.val ∧ 4096 < s.i.toNat + n.val
      | .ldB _ => 4096 < s.i.toNat + 3
      | .ldMemVx x => 4096 < s.i.toNat + (x.val + 1)
      | .ldVxMem x => 4096 < s.i.toNat + (x.val + 1)
      | _ => False) →
    ∃ t, exec i s = .next t ∧ t.status.halted = true ∧ t.status.cause = 3
      ∧ t.status.info.toNat = max s.i.toNat 4096 ∧ KeepsExcept [.status] s t

/-- A halted core: a step changes nothing, and in a run of any events but reset, once a step has been taken, only DT,
ST and K can change (R34, R120, R236, R241; decisions D20, D33). The run clause rests on the assumption on the host of R77
(decision D22), that a load has no move once a step has been taken; its premise `stepped` is the model's field of log entry
10. It says nothing of a core that an overflowing load has halted before any step, which may be loaded again (log entry
17). -/
def Obligations.HaltLastsUntilReset : Prop :=
  (∀ s : State, s.status.halted = true → step s = .next s)
    ∧ (∀ (es : List Event) (y y' : System), Event.reset ∉ es → y.core.status.halted = true → y.stepped = true →
        runEvents es y = some y' → KeepsExcept [.dt, .st, .keys] y.core y'.core)

/-! ### Control transfer -/

/-- R124, R233: 00EE is RET; it pops the address on top into PC as it is, and SP counts down; the entries that stay live,
and everything else but PC and SP, are unchanged; the next step of a running core faults if the address is 4096 or more; on
an empty stack it raises StackUnderflow, PC unchanged. -/
def Obligations.ReturnPopsAddress : Prop :=
  decode 0x00EE#16 = .ok .ret
    ∧ (∀ (s : State) (j : Fin Config.stackDepth), s.sp.val = j.val + 1 →
        ∃ t, exec .ret s = .next t ∧ t.pc = s.stack[j] ∧ t.sp.val = j.val
          ∧ LiveSame t.sp.val s t ∧ KeepsExcept [.pc, .sp, .stack] s t
          ∧ (s.status.halted = false → 4096 ≤ (s.stack[j]).toNat →
              ∃ u, step t = .next u ∧ u.status.halted = true ∧ u.status.cause = 3))
    ∧ (∀ s : State, s.sp.val = 0 → exec .ret s = .next (takeFault .stackUnderflow s)
        ∧ (takeFault .stackUnderflow s).pc = s.pc)

/-- R125: 1nnn is JP nnn; PC becomes nnn and nothing else changes; a jump to its own address changes no state at all; after
a jump to 0xFFF the next step of a running core faults in the fetch. -/
def Obligations.JumpSetsPc : Prop :=
  ∀ (a : Addr12) (s : State), decode (formNNN 0x1#4 a) = .ok (.jp a)
    ∧ ∃ t, exec (.jp a) s = .next t ∧ t.pc.toNat = a.toNat ∧ KeepsExcept [.pc] s t
        ∧ (s.pc.toNat = a.toNat → t = s)
        ∧ (a = 0xFFF#12 → s.status.halted = false →
            ∃ u, step t = .next u ∧ u.status.halted = true ∧ u.status.cause = 3)

/-- CALL (R126) below the depth: the address after the CALL is the new top entry, the entries below keep their values, SP
counts up, PC becomes nnn, nothing else changes (decision D5; STACK_DEPTH 16 by log entry 1). -/
def Obligations.CallPushesReturn : Prop :=
  ∀ (a : Addr12) (s : State) (j : Fin Config.stackDepth), s.sp.val = j.val →
    decode (formNNN 0x2#4 a) = .ok (.call a)
    ∧ ∃ t, exec (.call a) s = .next t ∧ t.pc.toNat = a.toNat ∧ t.sp.val = s.sp.val + 1
        ∧ t.stack[j] = s.pc + 2 ∧ LiveSame s.sp.val s t ∧ KeepsExcept [.pc, .sp, .stack] s t

/-- A RET right after a CALL comes back behind the CALL with the stack as it was (R124, R126; decision D5). -/
def Obligations.ReturnUndoesCall : Prop :=
  ∀ (a : Addr12) (s : State), s.sp.val < 16 →
    ∃ t u, exec (.call a) s = .next t ∧ exec .ret t = .next u
      ∧ u.pc = s.pc + 2 ∧ u.sp = s.sp ∧ LiveSame s.sp.val s u ∧ KeepsExcept [.pc, .stack] s u

/-- JP V0, nnn (R127): PC becomes the exact sum nnn + V0, at most 0x10FE, and nothing else changes (decisions D3,
D35). -/
def Obligations.JumpPlusV0 : Prop :=
  ∀ (a : Addr12) (s : State), decode (formNNN 0xB#4 a) = .ok (.jpV0 a)
    ∧ ∃ t, exec (.jpV0 a) s = .next t ∧ t.pc.toNat = a.toNat + (readReg s 0).toNat ∧ t.pc.toNat ≤ 0x10FE
        ∧ KeepsExcept [.pc] s t

/-- R140 to R143: the four skips on registers: their encodings, the low nibble of 5xy0 and 9xy0 fixed; PC + 4 if the
comparison holds, else PC + 2; nothing else changes. -/
def Obligations.SkipsOnRegisters : Prop :=
  ∀ (x y : RegIdx) (k : Byte) (s : State),
    (decode (formXKK 0x3#4 x k) = .ok (.seImm x k) ∧ decode (formXKK 0x4#4 x k) = .ok (.sneImm x k)
      ∧ decode (formXY 0x5#4 x y 0x0#4) = .ok (.seReg x y) ∧ decode (formXY 0x9#4 x y 0x0#4) = .ok (.sneReg x y))
    ∧ (∀ l : BitVec 4, l ≠ 0#4 →
        (∃ e, decode (formXY 0x5#4 x y l) = .error e) ∧ (∃ e, decode (formXY 0x9#4 x y l) = .error e))
    ∧ (∃ t, exec (.seImm x k) s = .next t ∧ KeepsExcept [.pc] s t
        ∧ t.pc = if (readReg s x).toNat = k.toNat then s.pc + 4 else s.pc + 2)
    ∧ (∃ t, exec (.sneImm x k) s = .next t ∧ KeepsExcept [.pc] s t
        ∧ t.pc = if (readReg s x).toNat = k.toNat then s.pc + 2 else s.pc + 4)
    ∧ (∃ t, exec (.seReg x y) s = .next t ∧ KeepsExcept [.pc] s t
        ∧ t.pc = if (readReg s x).toNat = (readReg s y).toNat then s.pc + 4 else s.pc + 2)
    ∧ (∃ t, exec (.sneReg x y) s = .next t ∧ KeepsExcept [.pc] s t
        ∧ t.pc = if (readReg s x).toNat = (readReg s y).toNat then s.pc + 2 else s.pc + 4)

/-- The whole table of R27: how each instruction leaves PC, and that an instruction that faults and a fetch that faults
leave it. PC + 2 after Fx29, Fx33, Fx55 and Fx65 is the spec's decision D32 (conflict C6; log entry 19); what CALL pushes is
D5, the key wait D15, the exact sum of Bnnn D35, PC after a fault D20. -/
def Obligations.PcAfterEachInstruction : Prop :=
  (∀ (i : Instr) (s t : State), s.status.halted = false → exec i s = .next t → t.status = s.status →
      match i with
      | .ret => ∀ j : Fin Config.stackDepth, s.sp.val = j.val + 1 → t.pc = s.stack[j]
      | .jp a => t.pc.toNat = a.toNat
      | .call a => t.pc.toNat = a.toNat ∧ ∀ j : Fin Config.stackDepth, s.sp.val = j.val → t.stack[j] = s.pc + 2
      | .jpV0 a => t.pc.toNat = a.toNat + (readReg s 0).toNat ∧ t.pc.toNat ≤ 0x10FE
      | .seImm x k => t.pc = if readReg s x = k then s.pc + 4 else s.pc + 2
      | .sneImm x k => t.pc = if readReg s x = k then s.pc + 2 else s.pc + 4
      | .seReg x y => t.pc = if readReg s x = readReg s y then s.pc + 4 else s.pc + 2
      | .sneReg x y => t.pc = if readReg s x = readReg s y then s.pc + 2 else s.pc + 4
      | .skp x => ∀ k : KeyIdx, k.val = (readReg s x).toNat →
          t.pc = if keyPressed s k = true then s.pc + 4 else s.pc + 2
      | .sknp x => ∀ k : KeyIdx, k.val = (readReg s x).toNat →
          t.pc = if keyPressed s k = true then s.pc + 2 else s.pc + 4
      | .ldVxK _ => ((∀ k : KeyIdx, keyPressed s k = false) → t.pc = s.pc)
          ∧ ((∃ k : KeyIdx, keyPressed s k = true) → t.pc = s.pc + 2)
      | _ => t.pc = s.pc + 2)
    ∧ (∀ (i : Instr) (s t : State), exec i s = .next t → t.status ≠ s.status → t.pc = s.pc)
    ∧ (∀ s t : State, step s = .next t → t.status ≠ s.status → t.pc = s.pc)

/-! ### Immediate and random -/

/-- R150: 6xkk is LD Vx, kk; Vx becomes kk, V15 like any other register; every other register and all else but PC are
unchanged, PC advances by 2. -/
def Obligations.LoadImmediateSetsVx : Prop :=
  ∀ (x : RegIdx) (k : Byte) (s : State), decode (formXKK 0x6#4 x k) = .ok (.ldImm x k)
    ∧ ∃ t, exec (.ldImm x k) s = .next t ∧ readReg t x = k ∧ RegsExcept [x] s t
        ∧ t.pc = s.pc + 2 ∧ KeepsExcept [.pc, .v] s t

/-- R151: 7xkk is ADD Vx, kk; Vx becomes the sum modulo 256 and no other register changes, so VF does not, unless it is
Vx; PC advances by 2. -/
def Obligations.AddImmediateWrapsNoFlag : Prop :=
  ∀ (x : RegIdx) (k : Byte) (s : State), decode (formXKK 0x7#4 x k) = .ok (.addImm x k)
    ∧ ∃ t, exec (.addImm x k) s = .next t
        ∧ (readReg t x).toNat = ((readReg s x).toNat + k.toNat) % 256 ∧ RegsExcept [x] s t
        ∧ t.pc = s.pc + 2 ∧ KeepsExcept [.pc, .v] s t

/-- RND (R152, R153): whatever byte the draw gives, Vx becomes kk plus it modulo 256, and the next draw is a new one (the
spec's decision D17; the drawn byte is the free value of log entry 5, the counter log entry 6). -/
def Obligations.RandomAddsDrawnByte : Prop :=
  ∀ (x : RegIdx) (k : Byte) (s : State), decode (formXKK 0xC#4 x k) = .ok (.rnd x k)
    ∧ ∃ t, exec (.rnd x k) s = .next t
        ∧ (readReg t x).toNat = (k.toNat + (Config.randomByte s.draws).toNat) % 256 ∧ RegsExcept [x] s t
        ∧ t.draws = s.draws + 1 ∧ t.pc = s.pc + 2 ∧ KeepsExcept [.pc, .v, .draws] s t

/-! ### ALU -/

/-- R161 to R164: LD Vx,Vy copies, OR, AND and XOR combine bit by bit into Vx; no flag: every other register, VF among
them, and all else but PC are unchanged; PC advances by 2. -/
def Obligations.CopyAndBitwise : Prop :=
  ∀ (x y : RegIdx) (s : State),
    (decode (formXY 0x8#4 x y 0x0#4) = .ok (.ldReg x y) ∧ decode (formXY 0x8#4 x y 0x1#4) = .ok (.orReg x y)
      ∧ decode (formXY 0x8#4 x y 0x2#4) = .ok (.andReg x y) ∧ decode (formXY 0x8#4 x y 0x3#4) = .ok (.xorReg x y))
    ∧ (∃ t, exec (.ldReg x y) s = .next t ∧ readReg t x = readReg s y
        ∧ RegsExcept [x] s t ∧ t.pc = s.pc + 2 ∧ KeepsExcept [.pc, .v] s t)
    ∧ (∃ t, exec (.orReg x y) s = .next t
        ∧ (∀ b, b < 8 → (readReg t x).getLsbD b = ((readReg s x).getLsbD b || (readReg s y).getLsbD b))
        ∧ RegsExcept [x] s t ∧ t.pc = s.pc + 2 ∧ KeepsExcept [.pc, .v] s t)
    ∧ (∃ t, exec (.andReg x y) s = .next t
        ∧ (∀ b, b < 8 → (readReg t x).getLsbD b = ((readReg s x).getLsbD b && (readReg s y).getLsbD b))
        ∧ RegsExcept [x] s t ∧ t.pc = s.pc + 2 ∧ KeepsExcept [.pc, .v] s t)
    ∧ (∃ t, exec (.xorReg x y) s = .next t
        ∧ (∀ b, b < 8 → (readReg t x).getLsbD b = ((readReg s x).getLsbD b ^^ (readReg s y).getLsbD b))
        ∧ RegsExcept [x] s t ∧ t.pc = s.pc + 2 ∧ KeepsExcept [.pc, .v] s t)

/-- ADD Vx, Vy (R165): the sum modulo 256 to Vx, the carry to VF; with x = 15 the carry stands, the sum is lost (order of
the writes: the spec's decision D18; log entry 9). -/
def Obligations.AddSetsCarry : Prop :=
  ∀ (x y : RegIdx) (s : State), decode (formXY 0x8#4 x y 0x4#4) = .ok (.addReg x y)
    ∧ ∃ t, exec (.addReg x y) s = .next t
        ∧ (readReg t 15).toNat = (if 255 < (readReg s x).toNat + (readReg s y).toNat then 1 else 0)
        ∧ (x ≠ 15 → (readReg t x).toNat = ((readReg s x).toNat + (readReg s y).toNat) % 256)
        ∧ RegsExcept [x, 15] s t ∧ t.pc = s.pc + 2 ∧ KeepsExcept [.pc, .v] s t

/-- SUB Vx, Vy (R166): VF is 1 if Vx > Vy strictly, written first; then Vx is the difference modulo 256 of the registers as
they are by then, case by case of x and y being 15 (the spec's decision D18; log entry 9). -/
def Obligations.SubtractSetsGreater : Prop :=
  ∀ (x y : RegIdx) (s : State), decode (formXY 0x8#4 x y 0x5#4) = .ok (.subReg x y)
    ∧ ∃ t, exec (.subReg x y) s = .next t ∧ RegsExcept [x, 15] s t ∧ t.pc = s.pc + 2 ∧ KeepsExcept [.pc, .v] s t
        ∧ (let a := (readReg s x).toNat
           let b := (readReg s y).toNat
           let f := if b < a then 1 else 0
           if x = 15 then
             if y = 15 then (readReg t 15).toNat = 0
             else (readReg t 15).toNat = (f + 256 - b) % 256
           else
             (readReg t 15).toNat = f
               ∧ (readReg t x).toNat = (if y = 15 then a + 256 - f else a + 256 - b) % 256)

/-- SUBN Vx, Vy (R168): VF is 1 if Vy > Vx strictly, written first; then Vx is the reverse difference modulo 256 of the
registers as they are by then (the spec's decisions D18 and D31; log entry 9). -/
def Obligations.ReverseSubtractSetsGreater : Prop :=
  ∀ (x y : RegIdx) (s : State), decode (formXY 0x8#4 x y 0x7#4) = .ok (.subnReg x y)
    ∧ ∃ t, exec (.subnReg x y) s = .next t ∧ RegsExcept [x, 15] s t ∧ t.pc = s.pc + 2 ∧ KeepsExcept [.pc, .v] s t
        ∧ (let a := (readReg s x).toNat
           let b := (readReg s y).toNat
           let f := if a < b then 1 else 0
           if x = 15 then
             if y = 15 then (readReg t 15).toNat = 0
             else (readReg t 15).toNat = (b + 256 - f) % 256
           else
             (readReg t 15).toNat = f
               ∧ (readReg t x).toNat = (if y = 15 then f + 256 - a else b + 256 - a) % 256)

/-- SHR and SHL (R167, R169): VF is the bit shifted out and Vx the shifted value; with x = 15 the freshly written VF is
shifted (the spec's decision D18; log entry 9); Vy takes no part. -/
def Obligations.ShiftsSetBitOut : Prop :=
  ∀ (x : RegIdx) (s : State),
    (∃ t, exec (.shr x) s = .next t ∧ RegsExcept [x, 15] s t ∧ t.pc = s.pc + 2 ∧ KeepsExcept [.pc, .v] s t
      ∧ (if x = 15 then (readReg t 15).toNat = 0
         else (readReg t 15).toNat = (readReg s x).toNat % 2 ∧ (readReg t x).toNat = (readReg s x).toNat / 2))
    ∧ (∃ t, exec (.shl x) s = .next t ∧ RegsExcept [x, 15] s t ∧ t.pc = s.pc + 2 ∧ KeepsExcept [.pc, .v] s t
      ∧ (if x = 15 then (readReg t 15).toNat = (if 128 ≤ (readReg s 15).toNat then 2 else 0)
         else (readReg t 15).toNat = (readReg s x).toNat / 128
           ∧ (readReg t x).toNat = (readReg s x).toNat * 2 % 256))

/-! ### Index register and memory transfer -/

/-- R181: Annn is LD I, nnn; I becomes nnn, PC advances by 2, nothing else changes. -/
def Obligations.LoadIndexSetsI : Prop :=
  ∀ (a : Addr12) (s : State), decode (formNNN 0xA#4 a) = .ok (.ldI a)
    ∧ ∃ t, exec (.ldI a) s = .next t ∧ t.i.toNat = a.toNat ∧ t.pc = s.pc + 2 ∧ KeepsExcept [.pc, .i] s t

/-- ADD I, Vx (R182): the sum modulo 65536, not 4096, and no register changes, VF included (decision D3); LD F, Vx (R184): I
becomes 5 * Vx for any Vx (decisions D24, D32). -/
def Obligations.IndexArithmetic : Prop :=
  ∀ (x : RegIdx) (s : State),
    (decode (formX 0xF#4 x 0x1E#8) = .ok (.addI x) ∧ decode (formX 0xF#4 x 0x29#8) = .ok (.ldF x))
    ∧ (∃ t, exec (.addI x) s = .next t ∧ t.i.toNat = (s.i.toNat + (readReg s x).toNat) % 65536
        ∧ t.pc = s.pc + 2 ∧ KeepsExcept [.pc, .i] s t)
    ∧ (∃ t, exec (.ldF x) s = .next t ∧ t.i.toNat = 5 * (readReg s x).toNat
        ∧ t.pc = s.pc + 2 ∧ KeepsExcept [.pc, .i] s t)

/-- LD B, Vx (R185) inside memory: three digits of 0 to 9 at I, I + 1, I + 2 that make up Vx in base ten, every other byte
and all else but PC unchanged, I too (decisions D26, D32). -/
def Obligations.BcdStoresDigits : Prop :=
  ∀ (x : RegIdx) (s : State), s.i.toNat ≤ 0xFFD → decode (formX 0xF#4 x 0x33#8) = .ok (.ldB x)
    ∧ ∃ t, exec (.ldB x) s = .next t
        ∧ (let h := (byteAt t.mem (indexBase s)).toNat
           let d := (byteAt t.mem (indexBase s + 1)).toNat
           let o := (byteAt t.mem (indexBase s + 2)).toNat
           h ≤ 9 ∧ d ≤ 9 ∧ o ≤ 9 ∧ 100 * h + 10 * d + o = (readReg s x).toNat)
        ∧ MemExcept (indexBase s) 3 s t ∧ t.pc = s.pc + 2 ∧ KeepsExcept [.pc, .mem] s t

/-- LD [I], Vx (R186) inside memory: register j at I + j for j = 0 to x, every other byte unchanged, I advanced by x + 1,
registers and all else but PC unchanged (decisions D25, D32). -/
def Obligations.RegisterDump : Prop :=
  ∀ (x : RegIdx) (s : State), s.i.toNat + x.val ≤ 0xFFF → decode (formX 0xF#4 x 0x55#8) = .ok (.ldMemVx x)
    ∧ ∃ t, exec (.ldMemVx x) s = .next t
        ∧ (∀ j : RegIdx, j ≤ x → byteAt t.mem (indexBase s + j.val) = readReg s j)
        ∧ MemExcept (indexBase s) (x.val + 1) s t ∧ t.i.toNat = s.i.toNat + x.val + 1
        ∧ t.pc = s.pc + 2 ∧ KeepsExcept [.pc, .mem, .i] s t

/-- LD Vx, [I] (R187) inside memory: register j from I + j for j = 0 to x, the registers above Vx unchanged, I advanced by
x + 1, memory and all else but PC unchanged (decisions D25, D32). -/
def Obligations.RegisterLoad : Prop :=
  ∀ (x : RegIdx) (s : State), s.i.toNat + x.val ≤ 0xFFF → decode (formX 0xF#4 x 0x65#8) = .ok (.ldVxMem x)
    ∧ ∃ t, exec (.ldVxMem x) s = .next t
        ∧ (∀ j : RegIdx, readReg t j = if j ≤ x then byteAt s.mem (indexBase s + j.val) else readReg s j)
        ∧ t.i.toNat = s.i.toNat + x.val + 1
        ∧ t.pc = s.pc + 2 ∧ KeepsExcept [.pc, .v, .i] s t

/-- Dumping V0 to Vx at nnn, reloading I with nnn, and loading V0 to Vx again, whatever the registers hold by then, gives
the registers dumped (R181, R186, R187; hazard R272; decision D25). -/
def Obligations.DumpThenLoadRestores : Prop :=
  ∀ (x : RegIdx) (a : Addr12) (s : State), s.i.toNat = a.toNat → a.toNat + x.val ≤ 0xFFF →
    ∃ t, exec (.ldMemVx x) s = .next t ∧
      ∀ (v' : Vector Byte 16), ∃ u w, exec (.ldI a) { t with v := v' } = .next u ∧ exec (.ldVxMem x) u = .next w
        ∧ (∀ j : RegIdx, j ≤ x → readReg w j = readReg s j) ∧ w.i = t.i

/-- A store is seen by the very next fetch: LD [I], Vx with I at the next instruction makes the next step run the word of
V0 and V1 (R74; decision D22). -/
def Obligations.StoreSeenByNextFetch : Prop :=
  ∀ (x : RegIdx) (i : Instr) (s : State), s.status.halted = false → 1 ≤ x.val → s.pc.toNat ≤ 0xFFC →
    s.i.toNat = s.pc.toNat + 2 → s.i.toNat + x.val ≤ 0xFFF →
    decode (wordOfBytes (readReg s 0) (readReg s 1)) = .ok i →
    ∃ t, exec (.ldMemVx x) s = .next t ∧ step t = exec i t

/-! ### Display -/

/-- R200: 00E0 is CLR; every pixel is off, PC advances by 2, nothing else changes, VF included. -/
def Obligations.ClearTurnsAllOff : Prop :=
  decode 0x00E0#16 = .ok .clr
    ∧ ∀ s : State, ∃ t, exec .clr s = .next t ∧ (∀ r c, pixelAt t.fb r c = false)
        ∧ t.pc = s.pc + 2 ∧ KeepsExcept [.pc, .fb] s t

/-- DRW (R201, R202) inside memory, any height, 0 among them: a pixel is inverted exactly if a 1 bit of the sprite lands on
it, coordinates wrapped; VF is 1 exactly if one of those was on before, else 0; the origins are those before VF is written;
nothing else but PC changes (decisions D7, D8, D9; grid size log entry 2, layout log entry 11). -/
def Obligations.DrawInvertsSpritePixels : Prop :=
  ∀ (x y : RegIdx) (n : Height) (s : State), n.val = 0 ∨ s.i.toNat + n.val ≤ 4096 →
    decode (formXY 0xD#4 x y (bits4 n)) = .ok (.drw x y n)
    ∧ ∃ t, exec (.drw x y n) s = .next t
        ∧ (∀ r c,
            (SpriteCovers s.mem (indexBase s) (readReg s x).toNat (readReg s y).toNat n.val r.val c.val →
              pixelAt t.fb r c = !(pixelAt s.fb r c))
            ∧ (¬ SpriteCovers s.mem (indexBase s) (readReg s x).toNat (readReg s y).toNat n.val r.val c.val →
              pixelAt t.fb r c = pixelAt s.fb r c))
        ∧ ((∃ r c, pixelAt s.fb r c = true
              ∧ SpriteCovers s.mem (indexBase s) (readReg s x).toNat (readReg s y).toNat n.val r.val c.val) →
            readReg t 15 = 1)
        ∧ ((¬ ∃ r c, pixelAt s.fb r c = true
              ∧ SpriteCovers s.mem (indexBase s) (readReg s x).toNat (readReg s y).toNat n.val r.val c.val) →
            readReg t 15 = 0)
        ∧ RegsExcept [15] s t ∧ t.pc = s.pc + 2 ∧ KeepsExcept [.pc, .v, .fb] s t

/-- Drawing the same sprite twice at the same origin restores the grid; if no pixel under it was on and it has a 1 bit,
VF is 0 after the first draw and 1 after the second (R202 (d), the source's property T6; decisions D7, D8, D9). -/
def Obligations.DrawTwiceRestores : Prop :=
  ∀ (x y : RegIdx) (n : Height) (s : State), x ≠ 15 → y ≠ 15 → n.val = 0 ∨ s.i.toNat + n.val ≤ 4096 →
    ∃ t u, exec (.drw x y n) s = .next t ∧ exec (.drw x y n) t = .next u ∧ u.fb = s.fb
      ∧ ((∃ j b, j < n.val ∧ b < 8 ∧ (byteAt s.mem (s.i.toNat + j)).getLsbD b = true) →
          (∀ r c, SpriteCovers s.mem s.i.toNat (readReg s x).toNat (readReg s y).toNat n.val r.val c.val →
            pixelAt s.fb r c = false) →
          readReg t 15 = 0 ∧ readReg u 15 = 1)

/-! ### Keypad and timers -/

/-- SKP and SKNP (R211, R212) with a key number of 0 to 15: PC + 4 if the key is pressed, or is not, else PC + 2; nothing
else changes, the key included (decisions D14, D16). -/
def Obligations.SkipsOnKeys : Prop :=
  ∀ (x : RegIdx) (k : KeyIdx) (s : State), (readReg s x).toNat = k.val →
    (decode (formX 0xE#4 x 0x9E#8) = .ok (.skp x) ∧ decode (formX 0xE#4 x 0xA1#8) = .ok (.sknp x))
    ∧ (∃ t, exec (.skp x) s = .next t ∧ KeepsExcept [.pc] s t
        ∧ t.pc = if keyPressed s k = true then s.pc + 4 else s.pc + 2)
    ∧ (∃ t, exec (.sknp x) s = .next t ∧ KeepsExcept [.pc] s t
        ∧ t.pc = if keyPressed s k = true then s.pc + 2 else s.pc + 4)

/-- LD Vx, K (R215) with no key pressed changes nothing at all; and a core waiting at one stays as it is at every step
(decision D15). -/
def Obligations.KeyWaitWithoutKey : Prop :=
  (∀ (x : RegIdx) (s : State), decode (formX 0xF#4 x 0x0A#8) = .ok (.ldVxK x)
      ∧ ((∀ k, keyPressed s k = false) → exec (.ldVxK x) s = .next s))
    ∧ (∀ s : State, s.status.halted = false → Waiting s → step s = .next s)

/-- LD Vx, K (R214, R215) with a key pressed: some pressed key's number goes to Vx, that key alone is cleared, PC advances by
2, nothing else changes; which of several keys it is, is the free choice of log entry 4 (decision D15). -/
def Obligations.KeyWaitTakesPressedKey : Prop :=
  ∀ (x : RegIdx) (s : State), (∃ k, keyPressed s k = true) →
    ∃ t k, exec (.ldVxK x) s = .next t ∧ keyPressed s k = true ∧ (readReg t x).toNat = k.val
      ∧ (∀ j, keyPressed t j = if j = k then false else keyPressed s j)
      ∧ RegsExcept [x] s t ∧ t.pc = s.pc + 2 ∧ KeepsExcept [.pc, .v, .keys, .draws] s t

/-- The timer instructions (R216 to R218): LD Vx, DT reads DT, LD DT, Vx and LD ST, Vx write DT and ST; nothing else but PC
changes (which selector does what is decision D11, log entry 11). -/
def Obligations.TimerTransfers : Prop :=
  ∀ (x : RegIdx) (s : State),
    (decode (formX 0xF#4 x 0x07#8) = .ok (.ldVxDt x) ∧ decode (formX 0xF#4 x 0x15#8) = .ok (.ldDtVx x)
      ∧ decode (formX 0xF#4 x 0x18#8) = .ok (.ldStVx x))
    ∧ (∃ t, exec (.ldVxDt x) s = .next t ∧ readReg t x = s.dt ∧ RegsExcept [x] s t
        ∧ t.pc = s.pc + 2 ∧ KeepsExcept [.pc, .v] s t)
    ∧ (∃ t, exec (.ldDtVx x) s = .next t ∧ t.dt = readReg s x ∧ t.pc = s.pc + 2 ∧ KeepsExcept [.pc, .dt] s t)
    ∧ (∃ t, exec (.ldStVx x) s = .next t ∧ t.st = readReg s x ∧ t.pc = s.pc + 2 ∧ KeepsExcept [.pc, .st] s t)

/-! ### Events -/

/-- `tick` (R219): both timers count down by one and stop at zero, nothing else changes (decision D12); `key_set` (R220): one
key bit is set, nothing else changes (decision D28). -/
def Obligations.TickAndKeySet : Prop :=
  (∀ s : State, (tickEvent s).dt.toNat = s.dt.toNat - 1 ∧ (tickEvent s).st.toNat = s.st.toNat - 1
      ∧ KeepsExcept [.dt, .st] s (tickEvent s))
    ∧ (∀ (s : State) (k : KeyIdx) (b : Bool),
      (∀ j, keyPressed (keySetEvent k b s) j = if j = k then b else keyPressed s j)
        ∧ KeepsExcept [.keys] s (keySetEvent k b s))

/-- `load` (R76, R238): an image of at most 3584 bytes stands at 0x200 upward, no other byte and no register changes, PC
included; a longer one raises LoadOverflow, MEM unchanged (decisions D20, D30). It holds on a halted core too: that a load
acts there as on a running core is the model's reading, for which the spec has no rule (log entry 17). -/
def Obligations.LoadCopiesImage : Prop :=
  ∀ (bytes : List Byte) (s : State),
    (bytes.length ≤ 3584 →
      (∀ j, j < bytes.length → byteAt (loadEvent bytes s).mem (0x200 + j) = bytes.getD j 0)
        ∧ MemExcept 0x200 bytes.length s (loadEvent bytes s) ∧ KeepsExcept [.mem] s (loadEvent bytes s))
    ∧ (3584 < bytes.length →
      (loadEvent bytes s).status = ⟨true, 6, 0⟩ ∧ KeepsExcept [.status] s (loadEvent bytes s))

/-- `reset` (R36, R50, R260): PC is 0x200; MEM is the glyph table at 5*d + j and zero from 0x050 up; V, I, SP, DT, ST, K and
FB are zero and STATUS clear. PC, and zero above the glyphs, are the source's; the glyph bytes are D10 (log entry 3), the
other values the spec's decision D6 (log entry 8). -/
def Obligations.ResetLeaves : Prop :=
  ∀ s : State,
    (resetEvent s).pc = 0x200#16
      ∧ (∀ d j, d < 16 → j < 5 →
          byteAt (resetEvent s).mem (5 * d + j) = (Config.glyph.getD d []).getD j 0)
      ∧ (∀ a, 0x50 ≤ a → byteAt (resetEvent s).mem a = 0)
      ∧ (∀ r, readReg (resetEvent s) r = 0) ∧ (resetEvent s).i = 0 ∧ (resetEvent s).sp.val = 0
      ∧ (resetEvent s).dt = 0 ∧ (resetEvent s).st = 0 ∧ (∀ k, keyPressed (resetEvent s) k = false)
      ∧ (∀ r c, pixelAt (resetEvent s).fb r c = false) ∧ (resetEvent s).status = ⟨false, 0, 0⟩

/-- R261: two resets in a row leave what one leaves, and a reset erases a loaded program: every byte of the program area
is zero. -/
def Obligations.ResetIsIdempotent : Prop :=
  ∀ (y : System) (bytes : List Byte), ∃ y', runEvents [.reset] y = some y' ∧ runEvents [.reset, .reset] y = some y'
    ∧ (y.stepped = false → ∃ z, runEvents [.load bytes, .reset] y = some z
        ∧ ∀ a, 0x200 ≤ a → byteAt z.core.mem a = 0)

/-- Boot (R263, R76): after reset and load of an image of two bytes or more that fits, PC is 0x200, the first two bytes of the
image are the word there, high byte first, and a step executes it (decisions D22, D30). -/
def Obligations.BootRunsFirstWord : Prop :=
  ∀ (y : System) (hi lo : Byte) (rest : List Byte), rest.length + 2 ≤ 3584 →
    ∃ y', runEvents [.reset, .load (hi :: lo :: rest)] y = some y' ∧ y'.core.pc = 0x200#16
      ∧ wordAt y'.core.mem 0x200 = wordOfBytes hi lo
      ∧ ∀ i, decode (wordOfBytes hi lo) = .ok i → step y'.core = exec i y'.core

/-- The host has no load move once a step has been taken, until a reset, and it has one right after it (R77; the assumption
on the host of decision D22, log entry 10). -/
def Obligations.NoLoadAfterStep : Prop :=
  (∀ (es : List Event) (bytes : List Byte) (y : System), Event.reset ∉ es →
      runEvents (.step :: es ++ [.load bytes]) y = none)
    ∧ (∀ (bytes : List Byte) (y : System), ∃ y', runEvents [.reset, .load bytes] y = some y')

/-! ### Whole-machine rules -/

/-- Who writes what: an instruction that does not fault changes no piece of state but those the rules on state name for
it, and no general register but those of the last column of R22 (R22, R23, R25, R29, R30, R32, R33, R34, R61: tables the spec
derives from its instruction rules). -/
def Obligations.OnlyNamedStateIsWritten : Prop :=
  ∀ (i : Instr) (s t : State), exec i s = .next t → t.status = s.status →
    KeepsExcept (partsWritten i) s t ∧ RegsExcept (regsWritten i) s t

/-- No instruction reads the sound timer: two cores that differ in ST alone differ in ST alone after a step (R30, R218;
decisions D11, D27). -/
def Obligations.SoundTimerIsNotRead : Prop :=
  ∀ (s t : State) (b : Byte), step s = .next t →
    ∃ t', step { s with st := b } = .next t' ∧ KeepsExcept [.st] t t'

/-- Entries of the call stack at SP and above hold no value a program can observe: two cores that differ in such entries
alone differ in such entries alone after a step (R29, R50, U11; decision D5). -/
def Obligations.DeadEntriesUnobservable : Prop :=
  ∀ (s t : State) (stk : Vector Word Config.stackDepth), LiveSame s.sp.val s { s with stack := stk } →
    step s = .next t →
    ∃ t', step { s with stack := stk } = .next t' ∧ KeepsExcept [.stack] t t' ∧ LiveSame t.sp.val t t'

/-- A parked core is a fixed point of step, so a run that has parked without a fault stays at its good end (R265; decision
D23). -/
def Obligations.ParkedIsFixedPoint : Prop :=
  ∀ s : State, GoodEnd s → step s = .next s

/-- Every step keeps the invariant of the core: canonical memory, PC at most 0x10FE, live return addresses at most 0x1000,
STATUS clear or a recorded fault (R28, R126, R231, R234; decisions D3, D20). -/
def Obligations.StepKeepsCoreInv : Prop :=
  ∀ s t : State, CoreInv s → step s = .next t → CoreInv t

/-- The invariant of the core holds right after reset (R50; decision D6). -/
def Obligations.ResetMeetsCoreInv : Prop :=
  CoreInv State.reset ∧ ∀ s : State, CoreInv (resetEvent s)

/-- Every run keeps the invariant of the core: from any state that meets it, whatever events come in whatever order
(R12, R28; decisions D1, D13). -/
def Obligations.EveryRunKeepsCoreInv : Prop :=
  ∀ (es : List Event) (y y' : System), CoreInv y.core → runEvents es y = some y' → CoreInv y'.core
end

