-- ==== Sys2Proof/Laws/State.lean ====
section
/-! SUPPORT. One lemma for each field of State after each named update, so that no proof unfolds an update. -/

namespace Sys2Proof.Machine

@[simp] theorem setPc_v (s : State) (w : Word) : (setPc s w).v = s.v := rfl
@[simp] theorem setPc_i (s : State) (w : Word) : (setPc s w).i = s.i := rfl
@[simp] theorem setPc_pc (s : State) (w : Word) : (setPc s w).pc = w := rfl
@[simp] theorem setPc_sp (s : State) (w : Word) : (setPc s w).sp = s.sp := rfl
@[simp] theorem setPc_stack (s : State) (w : Word) : (setPc s w).stack = s.stack := rfl
@[simp] theorem setPc_dt (s : State) (w : Word) : (setPc s w).dt = s.dt := rfl
@[simp] theorem setPc_st (s : State) (w : Word) : (setPc s w).st = s.st := rfl
@[simp] theorem setPc_keys (s : State) (w : Word) : (setPc s w).keys = s.keys := rfl
@[simp] theorem setPc_fb (s : State) (w : Word) : (setPc s w).fb = s.fb := rfl
@[simp] theorem setPc_mem (s : State) (w : Word) : (setPc s w).mem = s.mem := rfl
@[simp] theorem setPc_status (s : State) (w : Word) : (setPc s w).status = s.status := rfl
@[simp] theorem setPc_draws (s : State) (w : Word) : (setPc s w).draws = s.draws := rfl

@[simp] theorem advance_v (s : State) : (advance s).v = s.v := rfl
@[simp] theorem advance_i (s : State) : (advance s).i = s.i := rfl
@[simp] theorem advance_pc (s : State) : (advance s).pc = s.pc + 2 := rfl
@[simp] theorem advance_sp (s : State) : (advance s).sp = s.sp := rfl
@[simp] theorem advance_stack (s : State) : (advance s).stack = s.stack := rfl
@[simp] theorem advance_dt (s : State) : (advance s).dt = s.dt := rfl
@[simp] theorem advance_st (s : State) : (advance s).st = s.st := rfl
@[simp] theorem advance_keys (s : State) : (advance s).keys = s.keys := rfl
@[simp] theorem advance_fb (s : State) : (advance s).fb = s.fb := rfl
@[simp] theorem advance_mem (s : State) : (advance s).mem = s.mem := rfl
@[simp] theorem advance_status (s : State) : (advance s).status = s.status := rfl
@[simp] theorem advance_draws (s : State) : (advance s).draws = s.draws := rfl

@[simp] theorem skipIf_v (c : Bool) (s : State) : (skipIf c s).v = s.v := rfl
@[simp] theorem skipIf_i (c : Bool) (s : State) : (skipIf c s).i = s.i := rfl
@[simp] theorem skipIf_pc (c : Bool) (s : State) : (skipIf c s).pc = if c then s.pc + 4 else s.pc + 2 := rfl
@[simp] theorem skipIf_sp (c : Bool) (s : State) : (skipIf c s).sp = s.sp := rfl
@[simp] theorem skipIf_stack (c : Bool) (s : State) : (skipIf c s).stack = s.stack := rfl
@[simp] theorem skipIf_dt (c : Bool) (s : State) : (skipIf c s).dt = s.dt := rfl
@[simp] theorem skipIf_st (c : Bool) (s : State) : (skipIf c s).st = s.st := rfl
@[simp] theorem skipIf_keys (c : Bool) (s : State) : (skipIf c s).keys = s.keys := rfl
@[simp] theorem skipIf_fb (c : Bool) (s : State) : (skipIf c s).fb = s.fb := rfl
@[simp] theorem skipIf_mem (c : Bool) (s : State) : (skipIf c s).mem = s.mem := rfl
@[simp] theorem skipIf_status (c : Bool) (s : State) : (skipIf c s).status = s.status := rfl
@[simp] theorem skipIf_draws (c : Bool) (s : State) : (skipIf c s).draws = s.draws := rfl

@[simp] theorem writeReg_v (s : State) (r : RegIdx) (b : Byte) : (writeReg s r b).v = s.v.set r.val b r.isLt := rfl
@[simp] theorem writeReg_i (s : State) (r : RegIdx) (b : Byte) : (writeReg s r b).i = s.i := rfl
@[simp] theorem writeReg_pc (s : State) (r : RegIdx) (b : Byte) : (writeReg s r b).pc = s.pc := rfl
@[simp] theorem writeReg_sp (s : State) (r : RegIdx) (b : Byte) : (writeReg s r b).sp = s.sp := rfl
@[simp] theorem writeReg_stack (s : State) (r : RegIdx) (b : Byte) : (writeReg s r b).stack = s.stack := rfl
@[simp] theorem writeReg_dt (s : State) (r : RegIdx) (b : Byte) : (writeReg s r b).dt = s.dt := rfl
@[simp] theorem writeReg_st (s : State) (r : RegIdx) (b : Byte) : (writeReg s r b).st = s.st := rfl
@[simp] theorem writeReg_keys (s : State) (r : RegIdx) (b : Byte) : (writeReg s r b).keys = s.keys := rfl
@[simp] theorem writeReg_fb (s : State) (r : RegIdx) (b : Byte) : (writeReg s r b).fb = s.fb := rfl
@[simp] theorem writeReg_mem (s : State) (r : RegIdx) (b : Byte) : (writeReg s r b).mem = s.mem := rfl
@[simp] theorem writeReg_status (s : State) (r : RegIdx) (b : Byte) : (writeReg s r b).status = s.status := rfl
@[simp] theorem writeReg_draws (s : State) (r : RegIdx) (b : Byte) : (writeReg s r b).draws = s.draws := rfl

@[simp] theorem writeFlag_v (s : State) (f : Byte) : (writeFlag s f).v = s.v.set 15 f (by decide) := rfl
@[simp] theorem writeFlag_i (s : State) (f : Byte) : (writeFlag s f).i = s.i := rfl
@[simp] theorem writeFlag_pc (s : State) (f : Byte) : (writeFlag s f).pc = s.pc := rfl
@[simp] theorem writeFlag_sp (s : State) (f : Byte) : (writeFlag s f).sp = s.sp := rfl
@[simp] theorem writeFlag_stack (s : State) (f : Byte) : (writeFlag s f).stack = s.stack := rfl
@[simp] theorem writeFlag_dt (s : State) (f : Byte) : (writeFlag s f).dt = s.dt := rfl
@[simp] theorem writeFlag_st (s : State) (f : Byte) : (writeFlag s f).st = s.st := rfl
@[simp] theorem writeFlag_keys (s : State) (f : Byte) : (writeFlag s f).keys = s.keys := rfl
@[simp] theorem writeFlag_fb (s : State) (f : Byte) : (writeFlag s f).fb = s.fb := rfl
@[simp] theorem writeFlag_mem (s : State) (f : Byte) : (writeFlag s f).mem = s.mem := rfl
@[simp] theorem writeFlag_status (s : State) (f : Byte) : (writeFlag s f).status = s.status := rfl
@[simp] theorem writeFlag_draws (s : State) (f : Byte) : (writeFlag s f).draws = s.draws := rfl

@[simp] theorem setIndex_v (s : State) (w : Word) : (setIndex s w).v = s.v := rfl
@[simp] theorem setIndex_i (s : State) (w : Word) : (setIndex s w).i = w := rfl
@[simp] theorem setIndex_pc (s : State) (w : Word) : (setIndex s w).pc = s.pc := rfl
@[simp] theorem setIndex_sp (s : State) (w : Word) : (setIndex s w).sp = s.sp := rfl
@[simp] theorem setIndex_stack (s : State) (w : Word) : (setIndex s w).stack = s.stack := rfl
@[simp] theorem setIndex_dt (s : State) (w : Word) : (setIndex s w).dt = s.dt := rfl
@[simp] theorem setIndex_st (s : State) (w : Word) : (setIndex s w).st = s.st := rfl
@[simp] theorem setIndex_keys (s : State) (w : Word) : (setIndex s w).keys = s.keys := rfl
@[simp] theorem setIndex_fb (s : State) (w : Word) : (setIndex s w).fb = s.fb := rfl
@[simp] theorem setIndex_mem (s : State) (w : Word) : (setIndex s w).mem = s.mem := rfl
@[simp] theorem setIndex_status (s : State) (w : Word) : (setIndex s w).status = s.status := rfl
@[simp] theorem setIndex_draws (s : State) (w : Word) : (setIndex s w).draws = s.draws := rfl

@[simp] theorem advanceIndex_v (s : State) (x : RegIdx) : (advanceIndex s x).v = s.v := rfl
@[simp] theorem advanceIndex_i (s : State) (x : RegIdx) : (advanceIndex s x).i = s.i + BitVec.ofNat 16 (x.val + 1) := rfl
@[simp] theorem advanceIndex_pc (s : State) (x : RegIdx) : (advanceIndex s x).pc = s.pc := rfl
@[simp] theorem advanceIndex_sp (s : State) (x : RegIdx) : (advanceIndex s x).sp = s.sp := rfl
@[simp] theorem advanceIndex_stack (s : State) (x : RegIdx) : (advanceIndex s x).stack = s.stack := rfl
@[simp] theorem advanceIndex_dt (s : State) (x : RegIdx) : (advanceIndex s x).dt = s.dt := rfl
@[simp] theorem advanceIndex_st (s : State) (x : RegIdx) : (advanceIndex s x).st = s.st := rfl
@[simp] theorem advanceIndex_keys (s : State) (x : RegIdx) : (advanceIndex s x).keys = s.keys := rfl
@[simp] theorem advanceIndex_fb (s : State) (x : RegIdx) : (advanceIndex s x).fb = s.fb := rfl
@[simp] theorem advanceIndex_mem (s : State) (x : RegIdx) : (advanceIndex s x).mem = s.mem := rfl
@[simp] theorem advanceIndex_status (s : State) (x : RegIdx) : (advanceIndex s x).status = s.status := rfl
@[simp] theorem advanceIndex_draws (s : State) (x : RegIdx) : (advanceIndex s x).draws = s.draws := rfl

@[simp] theorem setKey_v (s : State) (k : KeyIdx) (b : Bool) : (setKey s k b).v = s.v := rfl
@[simp] theorem setKey_i (s : State) (k : KeyIdx) (b : Bool) : (setKey s k b).i = s.i := rfl
@[simp] theorem setKey_pc (s : State) (k : KeyIdx) (b : Bool) : (setKey s k b).pc = s.pc := rfl
@[simp] theorem setKey_sp (s : State) (k : KeyIdx) (b : Bool) : (setKey s k b).sp = s.sp := rfl
@[simp] theorem setKey_stack (s : State) (k : KeyIdx) (b : Bool) : (setKey s k b).stack = s.stack := rfl
@[simp] theorem setKey_dt (s : State) (k : KeyIdx) (b : Bool) : (setKey s k b).dt = s.dt := rfl
@[simp] theorem setKey_st (s : State) (k : KeyIdx) (b : Bool) : (setKey s k b).st = s.st := rfl
@[simp] theorem setKey_keys (s : State) (k : KeyIdx) (b : Bool) : (setKey s k b).keys = s.keys.set k.val b k.isLt := rfl
@[simp] theorem setKey_fb (s : State) (k : KeyIdx) (b : Bool) : (setKey s k b).fb = s.fb := rfl
@[simp] theorem setKey_mem (s : State) (k : KeyIdx) (b : Bool) : (setKey s k b).mem = s.mem := rfl
@[simp] theorem setKey_status (s : State) (k : KeyIdx) (b : Bool) : (setKey s k b).status = s.status := rfl
@[simp] theorem setKey_draws (s : State) (k : KeyIdx) (b : Bool) : (setKey s k b).draws = s.draws := rfl

@[simp] theorem takeFault_v (f : Fault) (s : State) : (takeFault f s).v = s.v := rfl
@[simp] theorem takeFault_i (f : Fault) (s : State) : (takeFault f s).i = s.i := rfl
@[simp] theorem takeFault_pc (f : Fault) (s : State) : (takeFault f s).pc = s.pc := rfl
@[simp] theorem takeFault_sp (f : Fault) (s : State) : (takeFault f s).sp = s.sp := rfl
@[simp] theorem takeFault_stack (f : Fault) (s : State) : (takeFault f s).stack = s.stack := rfl
@[simp] theorem takeFault_dt (f : Fault) (s : State) : (takeFault f s).dt = s.dt := rfl
@[simp] theorem takeFault_st (f : Fault) (s : State) : (takeFault f s).st = s.st := rfl
@[simp] theorem takeFault_keys (f : Fault) (s : State) : (takeFault f s).keys = s.keys := rfl
@[simp] theorem takeFault_fb (f : Fault) (s : State) : (takeFault f s).fb = s.fb := rfl
@[simp] theorem takeFault_mem (f : Fault) (s : State) : (takeFault f s).mem = s.mem := rfl
@[simp] theorem takeFault_status (f : Fault) (s : State) : (takeFault f s).status = ⟨true, faultCode f, faultInfo f⟩ := rfl
@[simp] theorem takeFault_draws (f : Fault) (s : State) : (takeFault f s).draws = s.draws := rfl

@[simp] theorem drawByte_v (s : State) : ((drawByte s).2).v = s.v := rfl
@[simp] theorem drawByte_i (s : State) : ((drawByte s).2).i = s.i := rfl
@[simp] theorem drawByte_pc (s : State) : ((drawByte s).2).pc = s.pc := rfl
@[simp] theorem drawByte_sp (s : State) : ((drawByte s).2).sp = s.sp := rfl
@[simp] theorem drawByte_stack (s : State) : ((drawByte s).2).stack = s.stack := rfl
@[simp] theorem drawByte_dt (s : State) : ((drawByte s).2).dt = s.dt := rfl
@[simp] theorem drawByte_st (s : State) : ((drawByte s).2).st = s.st := rfl
@[simp] theorem drawByte_keys (s : State) : ((drawByte s).2).keys = s.keys := rfl
@[simp] theorem drawByte_fb (s : State) : ((drawByte s).2).fb = s.fb := rfl
@[simp] theorem drawByte_mem (s : State) : ((drawByte s).2).mem = s.mem := rfl
@[simp] theorem drawByte_status (s : State) : ((drawByte s).2).status = s.status := rfl
@[simp] theorem drawByte_draws (s : State) : ((drawByte s).2).draws = s.draws + 1 := rfl

@[simp] theorem tickEvent_v (s : State) : (tickEvent s).v = s.v := rfl
@[simp] theorem tickEvent_i (s : State) : (tickEvent s).i = s.i := rfl
@[simp] theorem tickEvent_pc (s : State) : (tickEvent s).pc = s.pc := rfl
@[simp] theorem tickEvent_sp (s : State) : (tickEvent s).sp = s.sp := rfl
@[simp] theorem tickEvent_stack (s : State) : (tickEvent s).stack = s.stack := rfl
@[simp] theorem tickEvent_dt (s : State) : (tickEvent s).dt = countDown s.dt := rfl
@[simp] theorem tickEvent_st (s : State) : (tickEvent s).st = countDown s.st := rfl
@[simp] theorem tickEvent_keys (s : State) : (tickEvent s).keys = s.keys := rfl
@[simp] theorem tickEvent_fb (s : State) : (tickEvent s).fb = s.fb := rfl
@[simp] theorem tickEvent_mem (s : State) : (tickEvent s).mem = s.mem := rfl
@[simp] theorem tickEvent_status (s : State) : (tickEvent s).status = s.status := rfl
@[simp] theorem tickEvent_draws (s : State) : (tickEvent s).draws = s.draws := rfl

@[simp] theorem countDraw_v (s : State) (made : Bool) : (countDraw s made).v = s.v := by cases made <;> rfl
@[simp] theorem countDraw_i (s : State) (made : Bool) : (countDraw s made).i = s.i := by cases made <;> rfl
@[simp] theorem countDraw_pc (s : State) (made : Bool) : (countDraw s made).pc = s.pc := by cases made <;> rfl
@[simp] theorem countDraw_sp (s : State) (made : Bool) : (countDraw s made).sp = s.sp := by cases made <;> rfl
@[simp] theorem countDraw_stack (s : State) (made : Bool) : (countDraw s made).stack = s.stack := by cases made <;> rfl
@[simp] theorem countDraw_dt (s : State) (made : Bool) : (countDraw s made).dt = s.dt := by cases made <;> rfl
@[simp] theorem countDraw_st (s : State) (made : Bool) : (countDraw s made).st = s.st := by cases made <;> rfl
@[simp] theorem countDraw_keys (s : State) (made : Bool) : (countDraw s made).keys = s.keys := by cases made <;> rfl
@[simp] theorem countDraw_fb (s : State) (made : Bool) : (countDraw s made).fb = s.fb := by cases made <;> rfl
@[simp] theorem countDraw_mem (s : State) (made : Bool) : (countDraw s made).mem = s.mem := by cases made <;> rfl
@[simp] theorem countDraw_status (s : State) (made : Bool) : (countDraw s made).status = s.status := by cases made <;> rfl
@[simp] theorem countDraw_draws (s : State) (made : Bool) : (countDraw s made).draws = if made then s.draws + 1 else s.draws := by cases made <;> rfl
@[simp] theorem resetEvent_v (s : State) : (resetEvent s).v = State.reset.v := rfl
@[simp] theorem resetEvent_i (s : State) : (resetEvent s).i = State.reset.i := rfl
@[simp] theorem resetEvent_pc (s : State) : (resetEvent s).pc = State.reset.pc := rfl
@[simp] theorem resetEvent_sp (s : State) : (resetEvent s).sp = State.reset.sp := rfl
@[simp] theorem resetEvent_stack (s : State) : (resetEvent s).stack = State.reset.stack := rfl
@[simp] theorem resetEvent_dt (s : State) : (resetEvent s).dt = State.reset.dt := rfl
@[simp] theorem resetEvent_st (s : State) : (resetEvent s).st = State.reset.st := rfl
@[simp] theorem resetEvent_keys (s : State) : (resetEvent s).keys = State.reset.keys := rfl
@[simp] theorem resetEvent_fb (s : State) : (resetEvent s).fb = State.reset.fb := rfl
@[simp] theorem resetEvent_mem (s : State) : (resetEvent s).mem = State.reset.mem := rfl
@[simp] theorem resetEvent_status (s : State) : (resetEvent s).status = State.reset.status := rfl
@[simp] theorem resetEvent_draws (s : State) : (resetEvent s).draws = s.draws := rfl

/-! ### Register reads after writes -/

theorem readReg_writeReg (s : State) (r q : RegIdx) (b : Byte) :
    readReg (writeReg s r b) q = if q = r then b else readReg s q := by
  simp only [readReg, writeReg, Fin.getElem_fin, Vector.getElem_set, Fin.ext_iff, eq_comm]

@[simp] theorem readReg_writeReg_same (s : State) (r : RegIdx) (b : Byte) : readReg (writeReg s r b) r = b := by
  simp [readReg_writeReg]

theorem readReg_writeReg_other (s : State) {r q : RegIdx} (b : Byte) (h : q ≠ r) :
    readReg (writeReg s r b) q = readReg s q := by
  simp [readReg_writeReg, h]

theorem readReg_writeFlag (s : State) (q : RegIdx) (f : Byte) :
    readReg (writeFlag s f) q = if q = 15 then f else readReg s q :=
  readReg_writeReg s flagReg q f

/-- Reading a register depends on V alone. -/
theorem readReg_congr {s t : State} (h : t.v = s.v) (r : RegIdx) : readReg t r = readReg s r := by
  simp [readReg, h]

@[simp] theorem readReg_setPc (s : State) (w : Word) (r : RegIdx) : readReg (setPc s w) r = readReg s r := rfl
@[simp] theorem readReg_advance (s : State) (r : RegIdx) : readReg (advance s) r = readReg s r := rfl
@[simp] theorem readReg_skipIf (c : Bool) (s : State) (r : RegIdx) : readReg (skipIf c s) r = readReg s r := rfl
@[simp] theorem readReg_setIndex (s : State) (w : Word) (r : RegIdx) : readReg (setIndex s w) r = readReg s r := rfl
@[simp] theorem readReg_advanceIndex (s : State) (x r : RegIdx) : readReg (advanceIndex s x) r = readReg s r := rfl
@[simp] theorem readReg_setKey (s : State) (k : KeyIdx) (b : Bool) (r : RegIdx) :
    readReg (setKey s k b) r = readReg s r := rfl
@[simp] theorem readReg_takeFault (f : Fault) (s : State) (r : RegIdx) : readReg (takeFault f s) r = readReg s r := rfl
@[simp] theorem readReg_countDraw (s : State) (made : Bool) (r : RegIdx) :
    readReg (countDraw s made) r = readReg s r := by cases made <;> rfl

/-- Two register files that read the same are the same. -/
theorem v_ext {s t : State} (h : ∀ r, readReg t r = readReg s r) : t.v = s.v := by
  apply Vector.ext
  intro k hk
  exact h ⟨k, hk⟩

/-! ### Keys -/

theorem keyPressed_setKey (s : State) (k j : KeyIdx) (b : Bool) :
    keyPressed (setKey s k b) j = if j = k then b else keyPressed s j := by
  simp only [keyPressed, setKey, Fin.getElem_fin, Vector.getElem_set, Fin.ext_iff, eq_comm]

theorem mem_pressedKeys (s : State) (k : KeyIdx) : k ∈ pressedKeys s ↔ keyPressed s k = true := by
  simp [pressedKeys]

end Sys2Proof.Machine
end

