-- ==== Sys2Proof/Laws/Display.lean ====
section
/-! SUPPORT. What a draw does to the pixel grid: a sprite flips a list of pixels without repeats, so each is flipped once
and the order does not matter (spec/45_display.md R202 (c)). -/

namespace Sys2Proof.Machine

theorem pixelAt_flipPixel (g : Grid) (r r' : Fin Config.displayH) (c c' : Fin Config.displayW) :
    pixelAt (flipPixel g r c) r' c' = if r' = r ∧ c' = c then !(pixelAt g r c) else pixelAt g r' c' := by
  simp only [pixelAt, flipPixel, Fin.getElem_fin, Vector.getElem_set, Fin.ext_iff]
  by_cases hr : r.val = r'.val
  · by_cases hc : c.val = c'.val
    · simp [hr, hc]
    · simp [hr, hc, Ne.symm hc]
  · simp [hr, Ne.symm hr]

@[simp] theorem pixelAt_blankGrid (r : Fin Config.displayH) (c : Fin Config.displayW) :
    pixelAt blankGrid r c = false := by
  simp [pixelAt, blankGrid]

/-- Two grids with the same pixels are the same. -/
theorem grid_ext {g h : Grid} (H : ∀ r c, pixelAt g r c = pixelAt h r c) : g = h := by
  apply Vector.ext; intro r hr
  apply Vector.ext; intro c hc
  exact H ⟨r, hr⟩ ⟨c, hc⟩

/-- One pixel flipped, and whether it was on. -/
def flipHit (acc : Grid × Bool) (p : Fin Config.displayH × Fin Config.displayW) : Grid × Bool :=
  (flipPixel acc.1 p.1 p.2, acc.2 || pixelAt acc.1 p.1 p.2)

/-- Flipping a list of pixels without repeats inverts exactly those, and reports whether one of them was on. -/
theorem foldl_flipHit (l : List (Fin Config.displayH × Fin Config.displayW)) : l.Nodup → ∀ (g : Grid) (b : Bool),
    (∀ r c, pixelAt (l.foldl flipHit (g, b)).1 r c = if (r, c) ∈ l then !(pixelAt g r c) else pixelAt g r c)
      ∧ ((l.foldl flipHit (g, b)).2 = true ↔ b = true ∨ ∃ p ∈ l, pixelAt g p.1 p.2 = true) := by
  induction l with
  | nil => intro _ g b; simp
  | cons p rest ih =>
    intro hnd g b
    obtain ⟨hp, hrest⟩ := List.nodup_cons.mp hnd
    obtain ⟨ih1, ih2⟩ := ih hrest (flipPixel g p.1 p.2) (b || pixelAt g p.1 p.2)
    constructor
    · intro r c
      rw [List.foldl_cons, flipHit, ih1, pixelAt_flipPixel]
      by_cases h : (r, c) ∈ rest
      · have hne : ¬ (r = p.1 ∧ c = p.2) := by
          rintro ⟨rfl, rfl⟩; exact hp h
        simp [h, hne]
      · by_cases he : r = p.1 ∧ c = p.2
        · obtain ⟨rfl, rfl⟩ := he; simp [h]
        · have : (r, c) ≠ p := by rintro rfl; exact he ⟨rfl, rfl⟩
          simp [h, he, this]
    · rw [List.foldl_cons, flipHit, ih2]
      have hsame : ∀ q ∈ rest, pixelAt (flipPixel g p.1 p.2) q.1 q.2 = pixelAt g q.1 q.2 := by
        intro q hq
        rw [pixelAt_flipPixel, if_neg]
        rintro ⟨h1, h2⟩
        exact hp (by rw [show p = q from Prod.ext h1.symm h2.symm]; exact hq)
      simp only [Bool.or_eq_true, List.exists_mem_cons_iff]
      constructor
      · rintro ((h | h) | ⟨q, hq, h⟩)
        · exact .inl h
        · exact .inr (.inl h)
        · exact .inr (.inr ⟨q, hq, hsame q hq ▸ h⟩)
      · rintro (h | h | ⟨q, hq, h⟩)
        · exact .inl (.inl h)
        · exact .inl (.inr h)
        · exact .inr ⟨q, hq, (hsame q hq).symm ▸ h⟩

/-- The pixels the 1 bits of one sprite row land on. -/
def rowPixels (cx cy j : Nat) (b : Byte) : List (Fin Config.displayH × Fin Config.displayW) :=
  ((List.range 8).filter (spriteBit b)).map (fun i => (wrapRow cy j, wrapCol cx i))

/-- The pixels the 1 bits of a sprite land on. -/
def spritePixels (m : Memory) (base cx cy n : Nat) : List (Fin Config.displayH × Fin Config.displayW) :=
  (List.range n).flatMap (fun j => rowPixels cx cy j (byteAt m (base + j)))

theorem drawRow_eq (cx cy j : Nat) (b : Byte) (acc : Grid × Bool) :
    drawRow cx cy j b acc = (rowPixels cx cy j b).foldl flipHit acc := by
  rw [drawRow, rowPixels, List.foldl_map, List.foldl_filter]
  rfl

theorem drawSprite_eq (m : Memory) (base cx cy n : Nat) (g : Grid) :
    drawSprite m base cx cy n g = (spritePixels m base cx cy n).foldl flipHit (g, false) := by
  rw [drawSprite, spritePixels, List.foldl_flatMap]
  simp only [drawRow_eq]

theorem mem_rowPixels (cx cy j : Nat) (b : Byte) (r : Fin Config.displayH) (c : Fin Config.displayW) :
    (r, c) ∈ rowPixels cx cy j b ↔
      ∃ i, i < 8 ∧ b.getLsbD (7 - i) = true ∧ (cy + j) % Config.displayH = r.val ∧ (cx + i) % Config.displayW = c.val := by
  simp only [rowPixels, List.mem_map, List.mem_filter, List.mem_range, Prod.mk.injEq, Fin.ext_iff, wrapRow, wrapCol,
    spriteBit]
  constructor
  · rintro ⟨i, ⟨h1, h2⟩, h3, h4⟩; exact ⟨i, h1, h2, h3, h4⟩
  · rintro ⟨i, h1, h2, h3, h4⟩; exact ⟨i, ⟨h1, h2⟩, h3, h4⟩

theorem mem_spritePixels (m : Memory) (base cx cy n : Nat) (r : Fin Config.displayH) (c : Fin Config.displayW) :
    (r, c) ∈ spritePixels m base cx cy n ↔
      ∃ j i, j < n ∧ i < 8 ∧ (byteAt m (base + j)).getLsbD (7 - i) = true
        ∧ (cy + j) % Config.displayH = r.val ∧ (cx + i) % Config.displayW = c.val := by
  simp only [spritePixels, List.mem_flatMap, List.mem_range, mem_rowPixels]
  constructor
  · rintro ⟨j, hj, i, h⟩; exact ⟨j, i, hj, h⟩
  · rintro ⟨j, i, hj, h⟩; exact ⟨j, hj, i, h⟩

theorem rowPixels_nodup (cx cy j : Nat) (b : Byte) : (rowPixels cx cy j b).Nodup := by
  rw [rowPixels]
  refine List.Nodup.map_on ?_ (List.nodup_range.filter _)
  intro i hi i' hi' h
  have hi := List.mem_range.mp (List.mem_of_mem_filter hi)
  have hi' := List.mem_range.mp (List.mem_of_mem_filter hi')
  have h := congrArg (fun p => p.2.val) h
  simp only [wrapCol, Config.displayW] at h
  omega

/-- No two bits of a sprite of at most 15 rows land on one pixel (R202 (c)). -/
theorem spritePixels_nodup (m : Memory) (base cx cy : Nat) {n : Nat} (hn : n ≤ 15) :
    (spritePixels m base cx cy n).Nodup := by
  rw [spritePixels, List.nodup_flatMap]
  refine ⟨fun j _ => rowPixels_nodup cx cy j _, ?_⟩
  refine List.Pairwise.imp_of_mem ?_ (List.nodup_range (n := n))
  intro j j' hj hj' hne
  simp only [Function.onFun, List.disjoint_left]
  rintro ⟨r, c⟩ h h'
  obtain ⟨_, _, _, h1, _⟩ := (mem_rowPixels ..).mp h
  obtain ⟨_, _, _, h2, _⟩ := (mem_rowPixels ..).mp h'
  have hj := List.mem_range.mp hj
  have hj' := List.mem_range.mp hj'
  simp only [Config.displayH] at h1 h2
  omega

/-- What a draw does: it inverts exactly the pixels the sprite's 1 bits land on, and reports a hit exactly if one of them
was on. -/
theorem drawSprite_spec (m : Memory) (base cx cy : Nat) {n : Nat} (hn : n ≤ 15) (g : Grid) :
    (∀ r c, pixelAt (drawSprite m base cx cy n g).1 r c
        = if (r, c) ∈ spritePixels m base cx cy n then !(pixelAt g r c) else pixelAt g r c)
      ∧ ((drawSprite m base cx cy n g).2 = true ↔
          ∃ p ∈ spritePixels m base cx cy n, pixelAt g p.1 p.2 = true) := by
  rw [drawSprite_eq]
  have h := foldl_flipHit _ (spritePixels_nodup m base cx cy hn) g false
  exact ⟨h.1, by simpa using h.2⟩

end Sys2Proof.Machine
end

