-- ==== Sys2Proof/Laws/Encoding.lean ====
section
/-! SUPPORT. The fields of the four word forms, and their masked values: what decoding and the opcode map read of an
encoded word. -/

namespace Sys2Proof

/-! ### Fields and forms as numbers -/

theorem opField_toNat (w : Word) : (opField w).toNat = w.toNat / 4096 := by
  have := w.isLt
  simp only [opField, BitVec.extractLsb'_toNat, Nat.shiftRight_eq_div_pow]; omega

theorem xField_val (w : Word) : (xField w).val = w.toNat / 256 % 16 := by
  simp only [xField, BitVec.val_toFin, BitVec.extractLsb'_toNat, Nat.shiftRight_eq_div_pow]

theorem yField_val (w : Word) : (yField w).val = w.toNat / 16 % 16 := by
  simp only [yField, BitVec.val_toFin, BitVec.extractLsb'_toNat, Nat.shiftRight_eq_div_pow]

theorem nField_val (w : Word) : (nField w).val = w.toNat % 16 := by
  simp only [nField, BitVec.val_toFin, BitVec.extractLsb'_toNat, Nat.shiftRight_eq_div_pow]; omega

theorem kkField_toNat (w : Word) : (kkField w).toNat = w.toNat % 256 := by
  simp only [kkField, BitVec.extractLsb'_toNat, Nat.shiftRight_eq_div_pow]; omega

theorem nnnField_toNat (w : Word) : (nnnField w).toNat = w.toNat % 4096 := by
  simp only [nnnField, BitVec.extractLsb'_toNat, Nat.shiftRight_eq_div_pow]; omega

theorem append_toNat {m n : Nat} (a : BitVec m) (b : BitVec n) : (a ++ b).toNat = a.toNat * 2 ^ n + b.toNat := by
  rw [BitVec.toNat_append, ← Nat.shiftLeft_add_eq_or_of_lt b.isLt, Nat.shiftLeft_eq]

theorem formNNN_toNat (op : BitVec 4) (a : Addr12) : (formNNN op a).toNat = op.toNat * 4096 + a.toNat :=
  append_toNat op a

theorem formXKK_toNat (op : BitVec 4) (x : RegIdx) (k : Byte) :
    (formXKK op x k).toNat = op.toNat * 4096 + x.val * 256 + k.toNat := by
  refine (append_toNat (op ++ bits4 x) k).trans ?_
  rw [append_toNat]; simp only [bits4, BitVec.toNat_ofFin]; omega

theorem formX_toNat (op : BitVec 4) (x : RegIdx) (k : Byte) :
    (formX op x k).toNat = op.toNat * 4096 + x.val * 256 + k.toNat := formXKK_toNat op x k

theorem formXY_toNat (op : BitVec 4) (x y : RegIdx) (l : BitVec 4) :
    (formXY op x y l).toNat = op.toNat * 4096 + x.val * 256 + y.val * 16 + l.toNat := by
  refine (append_toNat (op ++ bits4 x ++ bits4 y) l).trans ?_
  rw [append_toNat, append_toNat]; simp only [bits4, BitVec.toNat_ofFin]; omega

/-! ### Fields of the word forms -/

@[simp] theorem opField_formNNN (op : BitVec 4) (a : Addr12) : opField (formNNN op a) = op := by
  apply BitVec.eq_of_toNat_eq
  rw [opField_toNat, formNNN_toNat]; have := a.isLt; omega

@[simp] theorem nnnField_formNNN (op : BitVec 4) (a : Addr12) : nnnField (formNNN op a) = a := by
  apply BitVec.eq_of_toNat_eq
  rw [nnnField_toNat, formNNN_toNat]; have := a.isLt; omega

@[simp] theorem opField_formXKK (op : BitVec 4) (x : RegIdx) (k : Byte) : opField (formXKK op x k) = op := by
  apply BitVec.eq_of_toNat_eq
  rw [opField_toNat, formXKK_toNat]; have := k.isLt; omega

@[simp] theorem xField_formXKK (op : BitVec 4) (x : RegIdx) (k : Byte) : xField (formXKK op x k) = x := by
  apply Fin.ext
  rw [xField_val, formXKK_toNat]; have := k.isLt; omega

@[simp] theorem kkField_formXKK (op : BitVec 4) (x : RegIdx) (k : Byte) : kkField (formXKK op x k) = k := by
  apply BitVec.eq_of_toNat_eq
  rw [kkField_toNat, formXKK_toNat]; have := k.isLt; omega

@[simp] theorem opField_formX (op : BitVec 4) (x : RegIdx) (k : Byte) : opField (formX op x k) = op :=
  opField_formXKK op x k

@[simp] theorem xField_formX (op : BitVec 4) (x : RegIdx) (k : Byte) : xField (formX op x k) = x :=
  xField_formXKK op x k

@[simp] theorem kkField_formX (op : BitVec 4) (x : RegIdx) (k : Byte) : kkField (formX op x k) = k :=
  kkField_formXKK op x k

@[simp] theorem opField_formXY (op : BitVec 4) (x y : RegIdx) (l : BitVec 4) : opField (formXY op x y l) = op := by
  apply BitVec.eq_of_toNat_eq
  rw [opField_toNat, formXY_toNat]; have := l.isLt; omega

@[simp] theorem xField_formXY (op : BitVec 4) (x y : RegIdx) (l : BitVec 4) : xField (formXY op x y l) = x := by
  apply Fin.ext
  rw [xField_val, formXY_toNat]; have := l.isLt; omega

@[simp] theorem yField_formXY (op : BitVec 4) (x y : RegIdx) (l : BitVec 4) : yField (formXY op x y l) = y := by
  apply Fin.ext
  rw [yField_val, formXY_toNat]; have := l.isLt; omega

@[simp] theorem nField_formXY (op : BitVec 4) (x y : RegIdx) (l : BitVec 4) : nField (formXY op x y l) = l.toFin := by
  apply Fin.ext
  have hl : l.toFin.val = l.toNat := rfl
  rw [nField_val, formXY_toNat, hl]; have := l.isLt; omega

/-! ### Bytes -/

theorem wordOfBytes_toNat (hi lo : Byte) : (wordOfBytes hi lo).toNat = hi.toNat * 256 + lo.toNat := append_toNat hi lo

theorem hiByte_toNat (w : Word) : (hiByte w).toNat = w.toNat / 256 := by
  have := w.isLt
  simp only [hiByte, BitVec.extractLsb'_toNat, Nat.shiftRight_eq_div_pow]; omega

theorem loByte_toNat (w : Word) : (loByte w).toNat = w.toNat % 256 := by
  simp only [loByte, BitVec.extractLsb'_toNat, Nat.shiftRight_eq_div_pow]; omega

@[simp] theorem wordOfBytes_bytes (w : Word) : wordOfBytes (hiByte w) (loByte w) = w := by
  apply BitVec.eq_of_toNat_eq
  rw [wordOfBytes_toNat, hiByte_toNat, loByte_toNat]; omega

@[simp] theorem hiByte_wordOfBytes (hi lo : Byte) : hiByte (wordOfBytes hi lo) = hi := by
  apply BitVec.eq_of_toNat_eq
  rw [hiByte_toNat, wordOfBytes_toNat]; have := lo.isLt; omega

@[simp] theorem loByte_wordOfBytes (hi lo : Byte) : loByte (wordOfBytes hi lo) = lo := by
  apply BitVec.eq_of_toNat_eq
  rw [loByte_toNat, wordOfBytes_toNat]; have := lo.isLt; omega

/-! ### Masked words -/

theorem formNNN_masked (op : BitVec 4) (a : Addr12) : formNNN op a &&& 0xF000#16 = formNNN op 0 := by
  apply BitVec.eq_of_getLsbD_eq; intro i hi
  simp only [formNNN, BitVec.getLsbD_and, BitVec.getLsbD_append]
  interval_cases i <;> simp

theorem formXKK_masked (op : BitVec 4) (x : RegIdx) (k : Byte) :
    formXKK op x k &&& 0xF000#16 = formXKK op 0 0 := by
  apply BitVec.eq_of_getLsbD_eq; intro i hi
  simp only [formXKK, BitVec.getLsbD_and, BitVec.getLsbD_append]
  interval_cases i <;> simp [bits4]

theorem formX_masked (op : BitVec 4) (x : RegIdx) (k : Byte) : formX op x k &&& 0xF0FF#16 = formX op 0 k := by
  apply BitVec.eq_of_getLsbD_eq; intro i hi
  simp only [formX, BitVec.getLsbD_and, BitVec.getLsbD_append]
  interval_cases i <;> simp [bits4]

theorem formXY_masked (op : BitVec 4) (x y : RegIdx) (l : BitVec 4) :
    formXY op x y l &&& 0xF00F#16 = formXY op 0 0 l := by
  apply BitVec.eq_of_getLsbD_eq; intro i hi
  simp only [formXY, BitVec.getLsbD_and, BitVec.getLsbD_append]
  interval_cases i <;> simp [bits4]

theorem formXYN_masked (op : BitVec 4) (x y : RegIdx) (l : BitVec 4) :
    formXY op x y l &&& 0xF000#16 = formXY op 0 0 0 := by
  apply BitVec.eq_of_getLsbD_eq; intro i hi
  simp only [formXY, BitVec.getLsbD_and, BitVec.getLsbD_append]
  interval_cases i <;> simp [bits4]

/-! ### Well-formedness -/

/-- The operand types bound every field, so every instruction is well formed. -/
theorem instr_wf (i : Instr) : i.wf = true := by
  have kk (k : Byte) : k.toNat < 256 := k.isLt
  have nnn (a : Addr12) : a.toNat < 4096 := a.isLt
  cases i <;>
    simp [Instr.wf, Instr.fields, Field.fits, Field.x, Field.y, Field.n, Field.kk, Field.nnn, kk, nnn]

end Sys2Proof
end

