-- ==== Sys2Proof/Laws/Memory.lean ====
section
/-! SUPPORT. What the memory operations do, once: reads after writes, and that every write keeps the canonical form. -/

namespace Sys2Proof.Machine

/-! ### Reads after writes -/

theorem byteAt_dropCell (m : Memory) (a b : Nat) :
    byteAt (dropCell m a) b = if b = a then resetByte b else byteAt m b := by
  induction m with
  | nil => simp [dropCell, byteAt]
  | cons c rest ih =>
    obtain ⟨k, w⟩ := c
    simp only [dropCell, List.filter_cons] at ih ⊢
    by_cases hk : k = a
    · subst hk
      simp only [bne_self_eq_false, Bool.false_eq_true, if_false, ih, byteAt]
      by_cases hb : b = k <;> simp [hb]
    · simp only [bne_iff_ne, ne_eq, hk, not_false_eq_true, if_true, byteAt, ih]
      by_cases hb : b = k
      · simp [hb, hk]
      · simp [hb]

theorem byteAt_insertCell (m : Memory) (a b : Nat) (u : Byte) (h : ∀ c ∈ m, c.1 ≠ a) :
    byteAt (insertCell m a u) b = if b = a then u else byteAt m b := by
  induction m with
  | nil => simp [insertCell, byteAt]
  | cons c rest ih =>
    obtain ⟨k, w⟩ := c
    have hk : k ≠ a := h (k, w) (by simp)
    have ih' := ih (fun c hc => h c (List.mem_cons_of_mem _ hc))
    simp only [insertCell]
    by_cases hlt : a < k
    · simp [hlt, byteAt]
    · simp only [hlt, if_false, byteAt, ih']
      by_cases hb : b = k
      · simp [hb, hk]
      · simp [hb]

theorem dropCell_ne (m : Memory) (a : Nat) : ∀ c ∈ dropCell m a, c.1 ≠ a := by
  intro c hc
  have := (List.mem_filter.mp hc).2
  simpa using this

/-- A read after a write gives the byte written at its address and what was there before at every other. -/
theorem byteAt_setByte (m : Memory) (a b : Nat) (u : Byte) :
    byteAt (setByte m a u) b = if b = a then u else byteAt m b := by
  unfold setByte
  by_cases hu : u = resetByte a
  · rw [if_pos hu, byteAt_dropCell]
    by_cases hb : b = a <;> simp [hb, hu]
  · rw [if_neg hu, byteAt_insertCell _ _ _ _ (dropCell_ne m a), byteAt_dropCell]
    by_cases hb : b = a <;> simp [hb]

/-- Reads after a run of bytes is stored. -/
theorem byteAt_storeBytes (us : List Byte) : ∀ (m : Memory) (a b : Nat),
    byteAt (storeBytes m a us) b
      = if a ≤ b ∧ b < a + us.length then us.getD (b - a) 0 else byteAt m b := by
  induction us with
  | nil => intro m a b; simp only [storeBytes, List.length_nil]; rw [if_neg (by omega)]
  | cons u rest ih =>
    intro m a b
    simp only [storeBytes, ih, byteAt_setByte, List.length_cons]
    rcases Nat.lt_trichotomy b a with h | h | h
    · rw [if_neg (by omega), if_neg (by omega), if_neg (by omega)]
    · subst h; simp
    · by_cases hin : b < a + 1 + rest.length
      · rw [if_pos ⟨by omega, hin⟩, if_pos ⟨by omega, by omega⟩]
        obtain ⟨d, rfl⟩ : ∃ d, b = a + 1 + d := ⟨b - (a + 1), by omega⟩
        rw [show a + 1 + d - (a + 1) = d by omega, show a + 1 + d - a = d + 1 by omega, List.getD_cons_succ]
      · rw [if_neg (by omega), if_neg (by omega), if_neg (by omega)]

/-- Outside the stored bytes nothing changes. -/
theorem byteAt_storeBytes_outside (us : List Byte) (m : Memory) (a b : Nat)
    (h : b < a ∨ a + us.length ≤ b) : byteAt (storeBytes m a us) b = byteAt m b := by
  rw [byteAt_storeBytes, if_neg (by omega)]

/-! ### The canonical form -/

theorem wfFrom_cons (lo k : Nat) (w : Byte) (rest : Memory) :
    wfFrom lo ((k, w) :: rest) = true ↔
      lo ≤ k ∧ k < 4096 ∧ w ≠ resetByte k ∧ wfFrom (k + 1) rest = true := by
  simp [wfFrom, and_assoc]

theorem wfFrom_mono {m : Memory} {lo lo' : Nat} (h : wfFrom lo' m = true) (hle : lo ≤ lo') :
    wfFrom lo m = true := by
  cases m with
  | nil => rfl
  | cons c rest =>
    obtain ⟨k, w⟩ := c
    rw [wfFrom_cons] at h ⊢
    exact ⟨by omega, h.2⟩

theorem wfFrom_dropCell {m : Memory} (a : Nat) : ∀ {lo : Nat}, wfFrom lo m = true → wfFrom lo (dropCell m a) = true := by
  induction m with
  | nil => intro lo h; exact h
  | cons c rest ih =>
    obtain ⟨k, w⟩ := c
    intro lo h
    obtain ⟨h1, h2, h3, h4⟩ := (wfFrom_cons _ _ _ _).mp h
    have ih' := ih h4
    simp only [dropCell, List.filter_cons] at ih' ⊢
    split
    · rw [wfFrom_cons]; exact ⟨h1, h2, h3, ih'⟩
    · exact wfFrom_mono ih' (by omega)

theorem wfFrom_insertCell {m : Memory} {a : Nat} {u : Byte} (ha : a < 4096) (hu : u ≠ resetByte a)
    (hne : ∀ c ∈ m, c.1 ≠ a) : ∀ {lo : Nat}, lo ≤ a → wfFrom lo m = true → wfFrom lo (insertCell m a u) = true := by
  induction m with
  | nil => intro lo hlo _; simp [insertCell, wfFrom, hlo, ha, hu]
  | cons c rest ih =>
    obtain ⟨k, w⟩ := c
    intro lo hlo h
    obtain ⟨h1, h2, h3, h4⟩ := (wfFrom_cons _ _ _ _).mp h
    have hk : k ≠ a := hne (k, w) (by simp)
    simp only [insertCell]
    split
    · rw [wfFrom_cons]
      refine ⟨hlo, ha, hu, ?_⟩
      rw [wfFrom_cons]; exact ⟨by omega, h2, h3, h4⟩
    · rw [wfFrom_cons]
      exact ⟨h1, h2, h3, ih (fun c hc => hne c (List.mem_cons_of_mem _ hc)) (by omega) h4⟩

/-- Storing a byte at an address that exists keeps the canonical form. -/
theorem setByte_wf {m : Memory} {a : Nat} {u : Byte} (h : Memory.wf m = true) (ha : a < 4096) :
    Memory.wf (setByte m a u) = true := by
  unfold setByte
  split
  · exact wfFrom_dropCell a h
  · rename_i hu
    exact wfFrom_insertCell ha hu (dropCell_ne m a) (Nat.zero_le a) (wfFrom_dropCell a h)

/-- Storing a run of bytes inside the address space keeps the canonical form. -/
theorem storeBytes_wf (us : List Byte) : ∀ {m : Memory} {a : Nat}, Memory.wf m = true → a + us.length ≤ 4096 →
    Memory.wf (storeBytes m a us) = true := by
  induction us with
  | nil => intro m a h _; exact h
  | cons u rest ih =>
    intro m a h hle
    simp only [List.length_cons] at hle
    exact ih (setByte_wf h (by omega)) (by omega)

theorem reset_mem_wf : Memory.wf State.reset.mem = true := rfl

theorem memWrite_wf {m m' : Memory} {a : Nat} {u : Byte} (h : Memory.wf m = true) (hw : memWrite m a u = .ok m') :
    Memory.wf m' = true := by
  unfold memWrite at hw
  split at hw
  · cases hw; exact setByte_wf h ‹_›
  · cases hw

/-- Placing a word at PC keeps the canonical form. -/
theorem placeAtPc_wf {s : State} {w : Word} (h : Memory.wf s.mem = true) : Memory.wf (placeAtPc s w).mem = true := by
  unfold placeAtPc
  dsimp only
  split
  · exact h
  · rename_i m hm
    have hm' := memWrite_wf h hm
    split
    · exact hm'
    · rename_i m' hm''
      exact memWrite_wf hm' hm''

/-! ### The range check -/

theorem rangeCheck_ok {base len : Nat} (h : len = 0 ∨ base + len ≤ 4096) : rangeCheck base len = .ok () := by
  simp [rangeCheck, h]

theorem rangeCheck_fault {base len : Nat} (h0 : 0 < len) (h : 4096 < base + len) :
    rangeCheck base len = .error (.addressFault (max base 4096)) := by
  have : ¬ (len = 0 ∨ base + len ≤ 4096) := by omega
  simp [rangeCheck, this]

/-- The check passes exactly on the accesses that stay inside memory. -/
theorem rangeCheck_cases (base len : Nat) :
    (rangeCheck base len = .ok () ∧ (len = 0 ∨ base + len ≤ 4096)) ∨
    (rangeCheck base len = .error (.addressFault (max base 4096)) ∧ 0 < len ∧ 4096 < base + len) := by
  by_cases h : len = 0 ∨ base + len ≤ 4096
  · exact .inl ⟨rangeCheck_ok h, h⟩
  · have h0 : 0 < len := by omega
    have h1 : 4096 < base + len := by omega
    exact .inr ⟨rangeCheck_fault h0 h1, h0, h1⟩

/-! ### The registers V0 to Vx -/

theorem mem_regsUpTo (x j : RegIdx) : j ∈ regsUpTo x ↔ j ≤ x := by simp [regsUpTo]

theorem regsUpTo_length (x : RegIdx) : (regsUpTo x).length = x.val + 1 := by
  revert x; decide

theorem regsUpTo_get (x : RegIdx) : ∀ k : Fin 16, k ≤ x → (regsUpTo x)[k.val]? = some k := by
  revert x; decide

@[simp] theorem regValues_length (s : State) (x : RegIdx) : (regValues s x).length = x.val + 1 := by
  simp [regValues, regsUpTo_length]

/-- The stored value of register `k` stands at offset `k`. -/
theorem regValues_getD (s : State) (x k : RegIdx) (h : k ≤ x) : (regValues s x).getD k.val 0 = readReg s k := by
  simp [regValues, List.getD_eq_getElem?_getD, regsUpTo_get x k h]

theorem readReg_loadFold (m : Memory) (base : Nat) (l : List RegIdx) : ∀ (s : State) (r : RegIdx),
    readReg (l.foldl (fun t j => writeReg t j (byteAt m (base + j.val))) s) r
      = if r ∈ l then byteAt m (base + r.val) else readReg s r := by
  induction l with
  | nil => intro s r; simp
  | cons j rest ih =>
    intro s r
    simp only [List.foldl_cons, ih, readReg_writeReg, List.mem_cons]
    by_cases h1 : r ∈ rest
    · simp [h1]
    · by_cases h2 : r = j <;> simp [h1, h2]

/-- LD Vx, [I] gives V0 to Vx the bytes from I up and leaves the registers above Vx. -/
theorem readReg_loadRegs (s : State) (x r : RegIdx) :
    readReg (loadRegs s x) r = if r ≤ x then byteAt s.mem (s.i.toNat + r.val) else readReg s r := by
  simp only [loadRegs, readReg_loadFold, mem_regsUpTo, indexBase]

theorem loadFold_rest (m : Memory) (base : Nat) (l : List RegIdx) : ∀ s : State,
    ∃ v', l.foldl (fun t j => writeReg t j (byteAt m (base + j.val))) s = { s with v := v' } := by
  induction l with
  | nil => intro s; exact ⟨s.v, rfl⟩
  | cons j rest ih => intro s; obtain ⟨v', h⟩ := ih (writeReg s j (byteAt m (base + j.val))); exact ⟨v', h⟩

/-- Loading registers changes V alone. -/
theorem loadRegs_rest (s : State) (x : RegIdx) : ∃ v', loadRegs s x = { s with v := v' } :=
  loadFold_rest _ _ _ s

/-! ### Call stack -/

theorem pushReturn_ok (s : State) (w : Word) (h : s.sp.val < Config.stackDepth) :
    pushReturn s w
      = .ok { s with stack := s.stack.set s.sp.val w h, sp := ⟨s.sp.val + 1, Nat.succ_lt_succ h⟩ } := by
  simp only [pushReturn, dif_pos h]

theorem pushReturn_full (s : State) (w : Word) (h : s.sp.val = Config.stackDepth) :
    pushReturn s w = .error (.stackOverflow Config.stackDepth) := by
  have : ¬ s.sp.val < Config.stackDepth := by omega
  rw [pushReturn, dif_neg this, h]

theorem popReturn_ok (s : State) (h : 0 < s.sp.val) :
    popReturn s = .ok ({ s with sp := ⟨s.sp.val - 1, by omega⟩ },
      s.stack[s.sp.val - 1]'(by have := s.sp.isLt; omega)) := by
  simp only [popReturn, dif_pos h]

theorem popReturn_empty (s : State) (h : s.sp.val = 0) : popReturn s = .error .stackUnderflow := by
  have : ¬ 0 < s.sp.val := by omega
  simp only [popReturn, dif_neg this]

/-! ### Fetch -/

theorem fetch_ok (s : State) (h : s.pc.toNat ≤ 0xFFE) :
    fetch s = .ok (wordOfBytes (byteAt s.mem s.pc.toNat) (byteAt s.mem (s.pc.toNat + 1))) := by
  have h1 : s.pc.toNat < 4096 := by omega
  have h2 : s.pc.toNat + 1 < 4096 := by omega
  simp [fetch, memRead, h1, h2]

theorem fetch_beyond (s : State) (h : 4096 ≤ s.pc.toNat) : fetch s = .error (.addressFault s.pc.toNat) := by
  have h1 : ¬ s.pc.toNat < 4096 := by omega
  simp [fetch, memRead, h1]

theorem fetch_last (s : State) (h : s.pc.toNat = 4095) : fetch s = .error (.addressFault 4096) := by
  simp [fetch, memRead, h]

/-- The fetch answers the word at PC exactly when both its bytes exist. -/
theorem fetch_cases (s : State) :
    (s.pc.toNat ≤ 0xFFE ∧
      fetch s = .ok (wordOfBytes (byteAt s.mem s.pc.toNat) (byteAt s.mem (s.pc.toNat + 1)))) ∨
    (0xFFF ≤ s.pc.toNat ∧ fetch s = .error (.addressFault (max s.pc.toNat 4096))) := by
  by_cases h : s.pc.toNat ≤ 0xFFE
  · exact .inl ⟨h, fetch_ok s h⟩
  · refine .inr ⟨by omega, ?_⟩
    by_cases h' : s.pc.toNat = 4095
    · rw [fetch_last s h', h']; rfl
    · rw [fetch_beyond s (by omega), Nat.max_eq_left (by omega)]

end Sys2Proof.Machine
end

