-- ==== Sys2Proof/Laws/PerInstr.lean ====
section
/-! SUPPORT. For each constructor of Instr: its operands fit their fields, and its encoded word matches the row of the
opcode map (spec/30_encoding.md R96) it belongs to. -/

/-- The instruction is well formed, and its word is its row's: `w &&& mask = value`. -/
def Sys2Proof.Laws.RowMatch.Statement (i : Sys2Proof.Instr) : Prop :=
  i.wf = true ∧ Sys2Proof.encode i &&& (Sys2Proof.rowOf i).mask = (Sys2Proof.rowOf i).value

namespace Sys2Proof.Laws.RowMatch

theorem clr : Statement .clr := ⟨instr_wf _, by decide⟩
theorem ret : Statement .ret := ⟨instr_wf _, by decide⟩
theorem jp (nnn : Addr12) : Statement (.jp nnn) := ⟨instr_wf _, formNNN_masked ..⟩
theorem call (nnn : Addr12) : Statement (.call nnn) := ⟨instr_wf _, formNNN_masked ..⟩
theorem seImm (x : RegIdx) (kk : Byte) : Statement (.seImm x kk) := ⟨instr_wf _, formXKK_masked ..⟩
theorem sneImm (x : RegIdx) (kk : Byte) : Statement (.sneImm x kk) := ⟨instr_wf _, formXKK_masked ..⟩
theorem seReg (x y : RegIdx) : Statement (.seReg x y) := ⟨instr_wf _, formXY_masked ..⟩
theorem ldImm (x : RegIdx) (kk : Byte) : Statement (.ldImm x kk) := ⟨instr_wf _, formXKK_masked ..⟩
theorem addImm (x : RegIdx) (kk : Byte) : Statement (.addImm x kk) := ⟨instr_wf _, formXKK_masked ..⟩
theorem ldReg (x y : RegIdx) : Statement (.ldReg x y) := ⟨instr_wf _, formXY_masked ..⟩
theorem orReg (x y : RegIdx) : Statement (.orReg x y) := ⟨instr_wf _, formXY_masked ..⟩
theorem andReg (x y : RegIdx) : Statement (.andReg x y) := ⟨instr_wf _, formXY_masked ..⟩
theorem xorReg (x y : RegIdx) : Statement (.xorReg x y) := ⟨instr_wf _, formXY_masked ..⟩
theorem addReg (x y : RegIdx) : Statement (.addReg x y) := ⟨instr_wf _, formXY_masked ..⟩
theorem subReg (x y : RegIdx) : Statement (.subReg x y) := ⟨instr_wf _, formXY_masked ..⟩
theorem shr (x : RegIdx) : Statement (.shr x) := ⟨instr_wf _, formXY_masked ..⟩
theorem subnReg (x y : RegIdx) : Statement (.subnReg x y) := ⟨instr_wf _, formXY_masked ..⟩
theorem shl (x : RegIdx) : Statement (.shl x) := ⟨instr_wf _, formXY_masked ..⟩
theorem sneReg (x y : RegIdx) : Statement (.sneReg x y) := ⟨instr_wf _, formXY_masked ..⟩
theorem ldI (nnn : Addr12) : Statement (.ldI nnn) := ⟨instr_wf _, formNNN_masked ..⟩
theorem jpV0 (nnn : Addr12) : Statement (.jpV0 nnn) := ⟨instr_wf _, formNNN_masked ..⟩
theorem rnd (x : RegIdx) (kk : Byte) : Statement (.rnd x kk) := ⟨instr_wf _, formXKK_masked ..⟩
theorem drw (x y : RegIdx) (n : Height) : Statement (.drw x y n) := ⟨instr_wf _, formXYN_masked ..⟩
theorem skp (x : RegIdx) : Statement (.skp x) := ⟨instr_wf _, formX_masked ..⟩
theorem sknp (x : RegIdx) : Statement (.sknp x) := ⟨instr_wf _, formX_masked ..⟩
theorem ldVxDt (x : RegIdx) : Statement (.ldVxDt x) := ⟨instr_wf _, formX_masked ..⟩
theorem ldVxK (x : RegIdx) : Statement (.ldVxK x) := ⟨instr_wf _, formX_masked ..⟩
theorem ldDtVx (x : RegIdx) : Statement (.ldDtVx x) := ⟨instr_wf _, formX_masked ..⟩
theorem ldStVx (x : RegIdx) : Statement (.ldStVx x) := ⟨instr_wf _, formX_masked ..⟩
theorem addI (x : RegIdx) : Statement (.addI x) := ⟨instr_wf _, formX_masked ..⟩
theorem ldF (x : RegIdx) : Statement (.ldF x) := ⟨instr_wf _, formX_masked ..⟩
theorem ldB (x : RegIdx) : Statement (.ldB x) := ⟨instr_wf _, formX_masked ..⟩
theorem ldMemVx (x : RegIdx) : Statement (.ldMemVx x) := ⟨instr_wf _, formX_masked ..⟩
theorem ldVxMem (x : RegIdx) : Statement (.ldVxMem x) := ⟨instr_wf _, formX_masked ..⟩

end Sys2Proof.Laws.RowMatch
end

