-- ==== Sys2Proof/Laws/Step.lean ====
section
/-! SUPPORT. What each meaning that can fault does on either side of its check, and what a step and a run can do: the
lemmas later proofs cite in place of unfolding. -/

namespace Sys2Proof.Machine

/-! ### Meanings that can fault -/

theorem execRet_cases (s : State) :
    (s.sp.val = 0 ∧ execRet s = .next (takeFault .stackUnderflow s)) ∨
    (∃ h : 0 < s.sp.val, execRet s = .next (setPc { s with sp := ⟨s.sp.val - 1, by omega⟩ }
      (s.stack[s.sp.val - 1]'(by have := s.sp.isLt; omega)))) := by
  by_cases h : 0 < s.sp.val
  · exact .inr ⟨h, by simp only [execRet, popReturn_ok s h, commit]⟩
  · have h0 : s.sp.val = 0 := by omega
    exact .inl ⟨h0, by simp only [execRet, popReturn_empty s h0, commit]⟩

theorem execCall_cases (a : Addr12) (s : State) :
    (s.sp.val = Config.stackDepth ∧ execCall a s = .next (takeFault (.stackOverflow Config.stackDepth) s)) ∨
    (∃ h : s.sp.val < Config.stackDepth, execCall a s = .next (setPc { s with
      stack := s.stack.set s.sp.val (s.pc + 2) h, sp := ⟨s.sp.val + 1, Nat.succ_lt_succ h⟩ } (zextAddr a))) := by
  by_cases h : s.sp.val < Config.stackDepth
  · exact .inr ⟨h, by simp only [execCall, pushReturn_ok s _ h, commit]⟩
  · have h0 : s.sp.val = Config.stackDepth := by have := s.sp.isLt; omega
    exact .inl ⟨h0, by simp only [execCall, pushReturn_full s _ h0, commit]⟩

theorem keyOf_ok {b : Byte} {k : KeyIdx} (h : b.toNat = k.val) : keyOf b = .ok k := by
  have hk := k.isLt
  have h' : b.toNat < 16 := by omega
  simp only [keyOf, dif_pos h', Except.ok.injEq]
  exact Fin.ext h

theorem keyOf_fault {b : Byte} (h : 15 < b.toNat) : keyOf b = .error (.keyIndexFault b) := by
  have : ¬ b.toNat < 16 := by omega
  simp only [keyOf, dif_neg this]

theorem execSkp_ok {x : RegIdx} {s : State} {k : KeyIdx} (h : (readReg s x).toNat = k.val) :
    execSkp x s = .next (skipIf (keyPressed s k) s) := by
  simp only [execSkp, keyOf_ok h, commit]

theorem execSkp_fault {x : RegIdx} {s : State} (h : 15 < (readReg s x).toNat) :
    execSkp x s = .next (takeFault (.keyIndexFault (readReg s x)) s) := by
  simp only [execSkp, keyOf_fault h, commit]

theorem execSknp_ok {x : RegIdx} {s : State} {k : KeyIdx} (h : (readReg s x).toNat = k.val) :
    execSknp x s = .next (skipIf (!keyPressed s k) s) := by
  simp only [execSknp, keyOf_ok h, commit]

theorem execSknp_fault {x : RegIdx} {s : State} (h : 15 < (readReg s x).toNat) :
    execSknp x s = .next (takeFault (.keyIndexFault (readReg s x)) s) := by
  simp only [execSknp, keyOf_fault h, commit]

theorem execLdB_ok (x : RegIdx) {s : State} (h : s.i.toNat + 3 ≤ 4096) :
    execLdB x s = .next (advance { s with mem := storeBytes s.mem (indexBase s) (bcdDigits (readReg s x)) }) := by
  simp only [execLdB, rangeCheck_ok (base := indexBase s) (len := 3) (.inr h), commit]

theorem execLdB_fault (x : RegIdx) {s : State} (h : 4096 < s.i.toNat + 3) :
    execLdB x s = .next (takeFault (.addressFault (max s.i.toNat 4096)) s) := by
  simp only [execLdB, rangeCheck_fault (base := indexBase s) (len := 3) (by omega) h, commit]; rfl

theorem execLdMemVx_ok {x : RegIdx} {s : State} (h : s.i.toNat + (x.val + 1) ≤ 4096) :
    execLdMemVx x s
      = .next (advance (advanceIndex { s with mem := storeBytes s.mem (indexBase s) (regValues s x) } x)) := by
  simp only [execLdMemVx, rangeCheck_ok (base := indexBase s) (len := x.val + 1) (.inr h), commit]

theorem execLdMemVx_fault {x : RegIdx} {s : State} (h : 4096 < s.i.toNat + (x.val + 1)) :
    execLdMemVx x s = .next (takeFault (.addressFault (max s.i.toNat 4096)) s) := by
  simp only [execLdMemVx, rangeCheck_fault (base := indexBase s) (len := x.val + 1) (by omega) h, commit]; rfl

theorem execLdVxMem_ok {x : RegIdx} {s : State} (h : s.i.toNat + (x.val + 1) ≤ 4096) :
    execLdVxMem x s = .next (advance (advanceIndex (loadRegs s x) x)) := by
  simp only [execLdVxMem, rangeCheck_ok (base := indexBase s) (len := x.val + 1) (.inr h), commit]

theorem execLdVxMem_fault {x : RegIdx} {s : State} (h : 4096 < s.i.toNat + (x.val + 1)) :
    execLdVxMem x s = .next (takeFault (.addressFault (max s.i.toNat 4096)) s) := by
  simp only [execLdVxMem, rangeCheck_fault (base := indexBase s) (len := x.val + 1) (by omega) h, commit]; rfl

theorem execDrw_ok (x y : RegIdx) {n : Height} {s : State} (h : n.val = 0 ∨ s.i.toNat + n.val ≤ 4096) :
    execDrw x y n s = .next (advance (writeFlag
      { s with fb := (drawSprite s.mem (indexBase s) (readReg s x).toNat (readReg s y).toNat n.val s.fb).1 }
      (collisionFlag (drawSprite s.mem (indexBase s) (readReg s x).toNat (readReg s y).toNat n.val s.fb).2))) := by
  simp only [execDrw, rangeCheck_ok (base := indexBase s) (len := n.val) h, commit]

theorem execDrw_fault (x y : RegIdx) {n : Height} {s : State} (h0 : 0 < n.val) (h : 4096 < s.i.toNat + n.val) :
    execDrw x y n s = .next (takeFault (.addressFault (max s.i.toNat 4096)) s) := by
  simp only [execDrw, rangeCheck_fault (base := indexBase s) (len := n.val) h0 h, commit]; rfl

/-! ### The key wait -/

theorem chooseKey_mem (sel : KeySelect) (d : Nat) (k : KeyIdx) (rest : List KeyIdx) :
    (chooseKey sel d k rest).1 ∈ k :: rest := by
  unfold chooseKey
  split
  · simp
  · simp
  · rename_i rest' _ _
    have h : Config.keyChoice d % (rest.length + 1) < (k :: rest).length := Nat.mod_lt _ (by simp)
    simp only [List.getD_eq_getElem _ _ h, List.getElem_mem]

/-- LD Vx, K: nothing without a key; with one, a pressed key's number goes to Vx and its bit is cleared. -/
theorem execLdVxK_cases (x : RegIdx) (s : State) :
    ((∀ k, keyPressed s k = false) ∧ execLdVxK x s = .next s) ∨
    (∃ k made, keyPressed s k = true ∧
      execLdVxK x s = .next (advance (setKey (writeReg (countDraw s made) x (BitVec.ofNat 8 k.val)) k false))) := by
  unfold execLdVxK
  split
  · rename_i h
    refine .inl ⟨fun k => ?_, rfl⟩
    have : k ∉ pressedKeys s := by simp [h]
    simpa [mem_pressedKeys] using this
  · rename_i k rest h
    refine .inr ⟨(chooseKey Config.keySelect s.draws k rest).1, _, ?_, rfl⟩
    rw [← mem_pressedKeys, h]
    exact chooseKey_mem ..

/-! ### A step and a run -/

/-- All a step can do: nothing on a halted core; a fault in the fetch; a fault in the decode; or exec. -/
theorem step_cases (s : State) :
    (s.status.halted = true ∧ step s = .next s) ∨
    (s.status.halted = false ∧ 0xFFF ≤ s.pc.toNat ∧ step s = .next (takeFault (.addressFault (max s.pc.toNat 4096)) s)) ∨
    (s.status.halted = false ∧ s.pc.toNat ≤ 0xFFE ∧ ∃ w, fetch s = .ok w ∧
      ((∃ e, decode w = .error e ∧ step s = .next (takeFault (.invalidOpcode w) s)) ∨
       (∃ i, decode w = .ok i ∧ step s = exec i s))) := by
  by_cases hh : s.status.halted = true
  · exact .inl ⟨hh, by simp [step, isHalted, hh]⟩
  · have hh : s.status.halted = false := by simpa using hh
    rcases fetch_cases s with ⟨hpc, hf⟩ | ⟨hpc, hf⟩
    · refine .inr (.inr ⟨hh, hpc, _, hf, ?_⟩)
      cases hd : decode (wordOfBytes (byteAt s.mem s.pc.toNat) (byteAt s.mem (s.pc.toNat + 1))) with
      | error e => exact .inl ⟨e, rfl, by simp [step, isHalted, hh, nextInstr, hf, decodeOrFault, hd]⟩
      | ok i => exact .inr ⟨i, rfl, by simp [step, isHalted, hh, nextInstr, hf, decodeOrFault, hd]⟩
    · exact .inr (.inl ⟨hh, hpc, by simp [step, isHalted, hh, nextInstr, hf]⟩)

/-- A step of a running core is exec of the word at PC. -/
theorem step_exec {s : State} {i : Instr} (hh : s.status.halted = false) (hpc : s.pc.toNat ≤ 0xFFE)
    (hd : decode (wordOfBytes (byteAt s.mem s.pc.toNat) (byteAt s.mem (s.pc.toNat + 1))) = .ok i) :
    step s = exec i s := by
  simp [step, isHalted, hh, nextInstr, fetch_ok s hpc, decodeOrFault, hd]

/-- All a move can do: it is the event's outcome on the core. -/
theorem systemMove_cases {e : Event} {y y' : System} (h : systemMove e y = some y') :
    mayHappen e y = true ∧ eventOutcome e y.core = .next y'.core ∧ y'.stepped = steppedAfter e y.stepped := by
  unfold systemMove at h
  split at h
  · rename_i hm
    split at h
    · rename_i s hs
      cases h
      exact ⟨hm, hs, rfl⟩
    · cases h
    · cases h
  · cases h

/-- A property that every move keeps holds after every run. -/
theorem run_invariant {P : System → Prop} (hmove : ∀ e y y', P y → systemMove e y = some y' → P y') :
    ∀ (es : List Event) (y y' : System), P y → runEvents es y = some y' → P y' := by
  intro es
  induction es with
  | nil => intro y y' hp h; cases h; exact hp
  | cons e rest ih =>
    intro y y' hp h
    simp only [runEvents] at h
    split at h
    · rename_i z hz; exact ih z y' (hmove e y z hp hz) h
    · cases h

end Sys2Proof.Machine
end

