-- ==== Sys2Proof/Tests/Slice0.lean ====
section
/-! SUPPORT. Small tests, each about one step or one word, with the results spec/95_test_vectors.md gives (the vector's
name stands beside each), the refusals of WellFormed, and for every obligation with hypotheses a state or operands that meet
them, at the ends of their ranges. -/

namespace Sys2Proof.Tests

open Sys2Proof.Machine Sys2Proof.Safety

/-! ### WellFormed: an ill-formed term for each check -/

theorem test_wf_value_too_wide : Field.fits ⟨8, 4, 16⟩ = false ∧ (Field.x 15).fits = true := by decide
theorem test_wf_field_outside_word : Field.fits ⟨13, 4, 0⟩ = false ∧ Field.fits ⟨12, 4, 0⟩ = true := by decide
theorem test_wf_nnn_too_wide : Field.fits ⟨0, 12, 4096⟩ = false ∧ (Field.nnn 0xFFF#12).fits = true := by decide
theorem test_wf_params : Config.params.wf = true := by decide
theorem test_wf_no_stack : Params.wf { Config.params with stackDepth := 0 } = false := by decide
theorem test_wf_narrow_grid : Params.wf { Config.params with displayW := 7 } = false := by decide
theorem test_wf_low_grid : Params.wf { Config.params with displayH := 14 } = false := by decide
theorem test_wf_glyph_missing : Params.wf { Config.params with glyph := Config.glyph.drop 1 } = false := by decide
theorem test_wf_glyph_short : Params.wf { Config.params with glyph := [0xF0#8] :: Config.glyph.drop 1 } = false := by
  decide

/-- 3584 bytes fit, 3585 do not (V-R4, V-R5). -/
theorem test_wf_image : imageFits (List.replicate 3584 0#8) = true ∧ imageFits (List.replicate 3585 0#8) = false := by
  simp only [imageFits, List.length_replicate]; decide

/-! ### Decoding: a word for every constructor, written out field by field from the patterns of R96 -/

theorem test_decode_control :
    decode (0b0000#4 ++ 0b0000#4 ++ 0b1110#4 ++ 0b0000#4) = .ok .clr
      ∧ decode (0b0000#4 ++ 0b0000#4 ++ 0b1110#4 ++ 0b1110#4) = .ok .ret
      ∧ decode (0b0001#4 ++ 0b001000000110#12) = .ok (.jp 0x206#12)
      ∧ decode (0b0010#4 ++ 0b001000001010#12) = .ok (.call 0x20A#12)
      ∧ decode (0b1011#4 ++ 0b001100000000#12) = .ok (.jpV0 0x300#12) := by decide

theorem test_decode_skips :
    decode (0b0011#4 ++ 0b1111#4 ++ 0b00000001#8) = .ok (.seImm 15 0x01#8)
      ∧ decode (0b0100#4 ++ 0b0000#4 ++ 0b00000101#8) = .ok (.sneImm 0 0x05#8)
      ∧ decode (0b0101#4 ++ 0b0000#4 ++ 0b0001#4 ++ 0b0000#4) = .ok (.seReg 0 1)
      ∧ decode (0b1001#4 ++ 0b1010#4 ++ 0b1011#4 ++ 0b0000#4) = .ok (.sneReg 10 11) := by decide

theorem test_decode_immediate :
    decode (0b0110#4 ++ 0b1010#4 ++ 0b11111111#8) = .ok (.ldImm 10 0xFF#8)
      ∧ decode (0b0111#4 ++ 0b0000#4 ++ 0b00000001#8) = .ok (.addImm 0 0x01#8)
      ∧ decode (0b1100#4 ++ 0b0000#4 ++ 0b00001111#8) = .ok (.rnd 0 0x0F#8) := by decide

theorem test_decode_alu :
    decode (0b1000#4 ++ 0b1010#4 ++ 0b1111#4 ++ 0b0000#4) = .ok (.ldReg 10 15)
      ∧ decode (0b1000#4 ++ 0b0000#4 ++ 0b0001#4 ++ 0b0001#4) = .ok (.orReg 0 1)
      ∧ decode (0b1000#4 ++ 0b0000#4 ++ 0b0001#4 ++ 0b0010#4) = .ok (.andReg 0 1)
      ∧ decode (0b1000#4 ++ 0b0010#4 ++ 0b0010#4 ++ 0b0011#4) = .ok (.xorReg 2 2)
      ∧ decode (0b1000#4 ++ 0b0000#4 ++ 0b0001#4 ++ 0b0100#4) = .ok (.addReg 0 1)
      ∧ decode (0b1000#4 ++ 0b1111#4 ++ 0b0001#4 ++ 0b0101#4) = .ok (.subReg 15 1)
      ∧ decode (0b1000#4 ++ 0b0000#4 ++ 0b0111#4 ++ 0b0110#4) = .ok (.shr 0)
      ∧ decode (0b1000#4 ++ 0b0001#4 ++ 0b1111#4 ++ 0b0111#4) = .ok (.subnReg 1 15)
      ∧ decode (0b1000#4 ++ 0b0000#4 ++ 0b0111#4 ++ 0b1110#4) = .ok (.shl 0) := by decide

theorem test_decode_index :
    decode (0b1010#4 ++ 0b001100000000#12) = .ok (.ldI 0x300#12)
      ∧ decode (0b1111#4 ++ 0b0010#4 ++ 0b00011110#8) = .ok (.addI 2)
      ∧ decode (0b1111#4 ++ 0b0000#4 ++ 0b00101001#8) = .ok (.ldF 0)
      ∧ decode (0b1111#4 ++ 0b0000#4 ++ 0b00110011#8) = .ok (.ldB 0)
      ∧ decode (0b1111#4 ++ 0b0001#4 ++ 0b01010101#8) = .ok (.ldMemVx 1)
      ∧ decode (0b1111#4 ++ 0b0010#4 ++ 0b01100101#8) = .ok (.ldVxMem 2) := by decide

theorem test_decode_display_keys_timers :
    decode (0b1101#4 ++ 0b0001#4 ++ 0b0010#4 ++ 0b0011#4) = .ok (.drw 1 2 3)
      ∧ decode (0b1110#4 ++ 0b0101#4 ++ 0b10011110#8) = .ok (.skp 5)
      ∧ decode (0b1110#4 ++ 0b0101#4 ++ 0b10100001#8) = .ok (.sknp 5)
      ∧ decode (0b1111#4 ++ 0b0001#4 ++ 0b00000111#8) = .ok (.ldVxDt 1)
      ∧ decode (0b1111#4 ++ 0b1111#4 ++ 0b00001010#8) = .ok (.ldVxK 15)
      ∧ decode (0b1111#4 ++ 0b0000#4 ++ 0b00010101#8) = .ok (.ldDtVx 0)
      ∧ decode (0b1111#4 ++ 0b0011#4 ++ 0b00011000#8) = .ok (.ldStVx 3) := by decide

/-- The invalid words of V-X1 to V-X16, each refused under its family's name. -/
theorem test_decode_refused :
    ([0x0000#16, 0x00E1#16, 0x00EF#16, 0x01E0#16, 0x0123#16].all fun w => decide (decode w = .error (.family0 w))) = true
      ∧ decode 0x5011#16 = .error (.family5 0x5011#16) ∧ decode 0x9ABF#16 = .error (.family9 0x9ABF#16)
      ∧ ([0x8008#16, 0x8ABD#16, 0x800F#16].all fun w => decide (decode w = .error (.family8 w))) = true
      ∧ ([0xE09F#16, 0xE000#16].all fun w => decide (decode w = .error (.familyE w))) = true
      ∧ ([0xF000#16, 0xF01F#16, 0xF075#16, 0xFFFF#16].all fun w => decide (decode w = .error (.familyF w))) = true
      ∧ decodeBytes [0x12#8] = .error .truncated := by decide

/-- The bytes `60 01 61 02 80 14` of the source's T2, read high byte first, and what a decoder leaves unread. -/
theorem test_decode_bytes :
    decodeBytes [0x60#8, 0x01#8, 0x61#8] = .ok (.ldImm 0 0x01#8, [0x61#8])
      ∧ encodeBytes (.ldImm 1 0x02#8) = [0x61#8, 0x02#8] ∧ encodeBytes (.addReg 0 1) = [0x80#8, 0x14#8] := by decide

/-- The fields of T1. -/
theorem test_fields :
    xField 0xD123#16 = 1 ∧ yField 0xD123#16 = 2 ∧ nField 0xD123#16 = 3 ∧ kkField 0xD123#16 = 0x23#8
      ∧ nnnField 0xD123#16 = 0x123#12 ∧ opField 0xD123#16 = 0xD#4 := by decide

theorem test_table_word : decodeTableWord 16 0x1206 = some (.jp 0x206#12) ∧ decodeTableWord 16 0x5011 = none := by
  decide

/-! ### States for the tests -/

/-- Reset, with general registers given. -/
def regs (l : List (RegIdx × Byte)) : State := l.foldl (fun s p => writeReg s p.1 p.2) State.reset

/-- The word placed at PC and run for one step. -/
def run1 (w : Nat) (s : State) : Host.Outcome State Fault Refusal := step (s.withFetchWord 16 w)

/-- What is seen of the next state. -/
def seen {α : Type} (o : Host.Outcome State Fault Refusal) (f : State → α) : Option α :=
  match o with
  | .next t => some (f t)
  | .fault _ | .refused _ => none

/-- VF, the given register, and PC. -/
def flagRegPc (r : RegIdx) (t : State) : Byte × Byte × Word := (readReg t 15, readReg t r, t.pc)

/-- Bytes stored from an address up. -/
def withBytes (s : State) (a : Nat) (l : List Byte) : State := { s with mem := storeBytes s.mem a l }

/-- I set. -/
def withI (s : State) (w : Word) : State := { s with i := w }

/-- One pixel turned on or off. -/
def withPixel (s : State) (r : Fin 32) (c : Fin 64) : State := { s with fb := flipPixel s.fb r c }

/-- Whether each of the pixels named (row, column) is on. -/
def onAt (t : State) (l : List (Fin 32 × Fin 64)) : List Bool := l.map (fun p => pixelAt t.fb p.1 p.2)

/-- How many pixels are on. -/
def onCount (t : State) : Nat := (t.fb.toList.map (fun row => row.toList.count true)).sum

/-! ### Fetch and faults of the fetch -/

/-- V-F2: an odd PC is legal. -/
theorem test_fetch_odd : seen (run1 0x6005 { State.reset with pc := 0x201 }) (fun t => (readReg t 0, t.pc))
    = some (0x05#8, 0x203#16) := by decide
/-- V-F3: the last word of memory, then off its end. -/
theorem test_fetch_last : seen (run1 0x6001 { State.reset with pc := 0xFFE }) (fun t => (readReg t 0, t.pc))
    = some (0x01#8, 0x1000#16) := by decide
/-- V-F4. -/
theorem test_fetch_0xFFF : seen (step { State.reset with pc := 0xFFF }) (fun t => (t.status, t.pc))
    = some (⟨true, 3, 0x1000⟩, 0xFFF#16) := by decide
/-- V-F5. -/
theorem test_fetch_beyond : seen (step { State.reset with pc := 0x10FE }) (fun t => (t.status, t.pc))
    = some (⟨true, 3, 0x10FE⟩, 0x10FE#16) := by decide
/-- V-X1 and V-X15. -/
theorem test_invalid_word : seen (step State.reset) (fun t => (t.status, t.pc)) = some (⟨true, 1, 0⟩, 0x200#16)
    ∧ seen (run1 0xF075 State.reset) (fun t => (t.status, t.pc)) = some (⟨true, 1, 0xF075⟩, 0x200#16) := by decide

/-! ### Control transfer -/

/-- V-C1, V-C3. -/
theorem test_jp : seen (run1 0x1206 State.reset) (·.pc) = some 0x206#16
    ∧ seen (run1 0x1FFF State.reset) (fun t => (t.pc, t.status.halted)) = some (0xFFF#16, false) := by decide
/-- V-C4. -/
theorem test_call : seen (run1 0x220A { State.reset with pc := 0x204 }) (fun t => (t.stack[0], t.sp.val, t.pc))
    = some (0x206#16, 1, 0x20A#16) := by decide
/-- V-C7: the seventeenth call. -/
theorem test_call_full : seen (run1 0x2200 { State.reset with sp := 16 }) (fun t => (t.status, t.sp.val, t.pc))
    = some (⟨true, 4, 16⟩, 16, 0x200#16) := by decide
/-- V-C5. -/
theorem test_ret : seen (run1 0x00EE { State.reset with sp := 1, stack := State.reset.stack.set 0 0x206 })
    (fun t => (t.sp.val, t.pc)) = some (0, 0x206#16) := by decide
/-- V-C6. -/
theorem test_ret_empty : seen (run1 0x00EE State.reset) (fun t => (t.status, t.sp.val, t.pc))
    = some (⟨true, 2, 0⟩, 0, 0x200#16) := by decide
/-- V-C8. -/
theorem test_jpV0 : seen (run1 0xB300 (regs [(0, 0x04)])) (·.pc) = some 0x304#16 := by decide
/-- V-C9: past the end of memory, no fault yet. -/
theorem test_jpV0_beyond : seen (run1 0xBFFF (regs [(0, 0xFF)])) (fun t => (t.pc, t.status.halted))
    = some (0x10FE#16, false) := by decide

/-! ### Skips -/

/-- V-S1, V-S2. -/
theorem test_seImm : seen (run1 0x3005 (regs [(0, 5)])) (·.pc) = some 0x204#16
    ∧ seen (run1 0x3005 (regs [(0, 6)])) (·.pc) = some 0x202#16 := by decide
/-- V-S3, V-S4. -/
theorem test_sneImm : seen (run1 0x4005 (regs [(0, 5)])) (·.pc) = some 0x202#16
    ∧ seen (run1 0x4005 (regs [(0, 6)])) (·.pc) = some 0x204#16 := by decide
/-- V-S5, V-S6. -/
theorem test_seReg : seen (run1 0x5010 (regs [(0, 7), (1, 7)])) (·.pc) = some 0x204#16
    ∧ seen (run1 0x5010 (regs [(0, 7), (1, 8)])) (·.pc) = some 0x202#16 := by decide
/-- V-S8, V-S9. -/
theorem test_sneReg : seen (run1 0x9010 (regs [(0, 7), (1, 8)])) (·.pc) = some 0x204#16
    ∧ seen (run1 0x9010 (regs [(0, 7), (1, 7)])) (·.pc) = some 0x202#16 := by decide

/-! ### Immediate and random -/

/-- V-I1. -/
theorem test_ldImm : seen (run1 0x6AFF State.reset) (fun t => (readReg t 10, t.pc)) = some (0xFF#8, 0x202#16) := by decide
/-- V-I3: wraps, VF untouched. -/
theorem test_addImm : seen (run1 0x7001 (regs [(0, 0xFF), (15, 0x55)])) (flagRegPc 0)
    = some (0x55#8, 0x00#8, 0x202#16) := by decide
/-- V-I9: with kk = 0 the drawn byte itself. -/
theorem test_rnd_zero : seen (exec (.rnd 0 0) State.reset) (fun t => readReg t 0) = some (0#8 + Config.randomByte 0) := rfl
/-- V-I6 to V-I8: the sum that RND takes of the immediate 0x0F and the byte drawn. -/
theorem test_rnd_sum : 0x0F#8 + 0x00#8 = 0x0F#8 ∧ 0x0F#8 + 0xF1#8 = 0x00#8 ∧ 0x0F#8 + 0xFF#8 = 0x0E#8
    ∧ seen (exec (.rnd 0 0x0F) State.reset) (fun t => readReg t 0) = some (0x0F#8 + Config.randomByte 0) :=
  ⟨by decide, by decide, by decide, rfl⟩

/-! ### ALU -/

/-- V-A1. -/
theorem test_ldReg : seen (run1 0x8AF0 (regs [(15, 1), (10, 0x77)])) (flagRegPc 10) = some (1#8, 1#8, 0x202#16) := by decide
/-- V-A2. -/
theorem test_orReg : seen (run1 0x8011 (regs [(0, 0x0C), (1, 0x0A), (15, 0x55)])) (flagRegPc 0)
    = some (0x55#8, 0x0E#8, 0x202#16) := by decide
/-- V-A3. -/
theorem test_andReg : seen (run1 0x8012 (regs [(0, 0x0C), (1, 0x0A), (15, 0x55)])) (flagRegPc 0)
    = some (0x55#8, 0x08#8, 0x202#16) := by decide
/-- V-A4. -/
theorem test_xorReg : seen (run1 0x8013 (regs [(0, 0x0C), (1, 0x0A), (15, 0x55)])) (flagRegPc 0)
    = some (0x55#8, 0x06#8, 0x202#16) := by decide
/-- V-A6 (the source's T5). -/
theorem test_addReg : seen (run1 0x8014 (regs [(0, 0xFF), (1, 2)])) (flagRegPc 0) = some (1#8, 1#8, 0x202#16) := by decide
/-- V-A11, V-A13: VF as an operand. -/
theorem test_addReg_vf : seen (run1 0x8F14 (regs [(15, 0xF0), (1, 0x20)])) (readReg · 15) = some 1#8
    ∧ seen (run1 0x81F4 (regs [(1, 0xFF), (15, 3)])) (flagRegPc 1) = some (1#8, 2#8, 0x202#16) := by decide
/-- V-A16, V-A17. -/
theorem test_subReg : seen (run1 0x8015 (regs [(0, 3), (1, 5)])) (flagRegPc 0) = some (0#8, 0xFE#8, 0x202#16)
    ∧ seen (run1 0x8015 (regs [(0, 7), (1, 7)])) (flagRegPc 0) = some (0#8, 0#8, 0x202#16) := by decide
/-- V-A18, V-A20, V-A22. -/
theorem test_subReg_vf : seen (run1 0x8F15 (regs [(15, 9), (1, 3)])) (readReg · 15) = some 0xFE#8
    ∧ seen (run1 0x81F5 (regs [(1, 9), (15, 4)])) (flagRegPc 1) = some (1#8, 8#8, 0x202#16)
    ∧ seen (run1 0x8FF5 (regs [(15, 0x33)])) (readReg · 15) = some 0#8 := by decide
/-- V-A24: Vy ignored. -/
theorem test_shr : seen (run1 0x8076 (regs [(0, 4), (7, 0xFF), (15, 1)])) (fun t => (flagRegPc 0 t, readReg t 7))
    = some ((0#8, 2#8, 0x202#16), 0xFF#8) := by decide
/-- V-A23, V-A25. -/
theorem test_shr_vf : seen (run1 0x8006 (regs [(0, 5)])) (flagRegPc 0) = some (1#8, 2#8, 0x202#16)
    ∧ seen (run1 0x8F06 (regs [(15, 0xFF)])) (readReg · 15) = some 0#8 := by decide
/-- V-A26, V-A27. -/
theorem test_subnReg : seen (run1 0x8017 (regs [(0, 3), (1, 5)])) (flagRegPc 0) = some (1#8, 2#8, 0x202#16)
    ∧ seen (run1 0x8017 (regs [(0, 5), (1, 3)])) (flagRegPc 0) = some (0#8, 0xFE#8, 0x202#16) := by decide
/-- V-A29, V-A31. -/
theorem test_subnReg_vf : seen (run1 0x8F17 (regs [(15, 2), (1, 9)])) (readReg · 15) = some 8#8
    ∧ seen (run1 0x81F7 (regs [(1, 2), (15, 9)])) (flagRegPc 1) = some (1#8, 0xFF#8, 0x202#16) := by decide
/-- V-A36: Vy ignored. -/
theorem test_shl : seen (run1 0x807E (regs [(0, 0xFF), (7, 0)])) (flagRegPc 0) = some (1#8, 0xFE#8, 0x202#16) := by decide
/-- V-A37, V-A38. -/
theorem test_shl_vf : seen (run1 0x8F0E (regs [(15, 0x80)])) (readReg · 15) = some 2#8
    ∧ seen (run1 0x8F0E (regs [(15, 0x7F)])) (readReg · 15) = some 0#8 := by decide

/-! ### Index register and memory transfer -/

/-- V-M1. -/
theorem test_ldI : seen (run1 0xA300 (withI State.reset 0xFFFF)) (fun t => (t.i, t.pc)) = some (0x300#16, 0x202#16) := by
  decide
/-- V-M3, V-M4. -/
theorem test_addI : seen (run1 0xF21E (withI (regs [(2, 1)]) 0xFFF)) (fun t => (t.i, readReg t 15)) = some (0x1000#16, 0#8)
    ∧ seen (run1 0xF21E (withI (regs [(2, 2)]) 0xFFFF)) (·.i) = some 1#16 := by decide
/-- V-M5, V-M7. -/
theorem test_ldF : seen (run1 0xF029 (regs [(0, 0x0A)])) (·.i) = some 0x32#16
    ∧ seen (run1 0xF029 (regs [(0, 0xFF)])) (·.i) = some 0x4FB#16 := by decide
/-- V-M11: the last three bytes of memory. -/
theorem test_ldB : seen (run1 0xF033 (withI (regs [(0, 0xFF)]) 0xFFD))
    (fun t => (byteAt t.mem 0xFFD, byteAt t.mem 0xFFE, byteAt t.mem 0xFFF, t.i, t.status.halted))
    = some (2#8, 5#8, 5#8, 0xFFD#16, false) := by decide
/-- V-M12: one byte too far, nothing stored. -/
theorem test_ldB_fault : seen (run1 0xF033 (withI (regs [(0, 0xFF)]) 0xFFE))
    (fun t => (t.status, byteAt t.mem 0xFFE, t.pc)) = some (⟨true, 3, 0x1000⟩, 0#8, 0x200#16) := by decide
/-- V-M15. -/
theorem test_ldMemVx : seen (run1 0xF155 (withI (regs [(0, 0x12), (1, 0x0A)]) 0x20A))
    (fun t => (byteAt t.mem 0x20A, byteAt t.mem 0x20B, byteAt t.mem 0x20C, t.i)) = some (0x12#8, 0x0A#8, 0#8, 0x20C#16) := by
  decide
/-- V-M17. -/
theorem test_ldMemVx_fault : seen (run1 0xFF55 (withI (regs [(0, 0xAB)]) 0xFF1))
    (fun t => (t.status, t.i, byteAt t.mem 0xFF1)) = some (⟨true, 3, 0x1000⟩, 0xFF1#16, 0#8) := by decide
/-- V-M18. -/
theorem test_ldVxMem : seen (run1 0xF265 (withI (withBytes (regs [(3, 0x77)]) 0x300 [2, 5, 4, 9]) 0x300))
    (fun t => (readReg t 0, readReg t 1, readReg t 2, readReg t 3, t.i)) = some (2#8, 5#8, 4#8, 0x77#8, 0x303#16) := by
  decide
/-- V-M20. -/
theorem test_ldVxMem_fault : seen (run1 0xF165 (withI (regs [(0, 0x77)]) 0xFFF)) (fun t => (t.status, readReg t 0))
    = some (⟨true, 3, 0x1000⟩, 0x77#8) := by decide

/-! ### Display -/

/-- V-D1. -/
theorem test_clr : seen (run1 0x00E0 (withPixel (regs [(15, 1)]) 3 4)) (fun t => (onCount t, readReg t 15, t.pc))
    = some (0, 1#8, 0x202#16) := by decide +kernel
/-- V-D4: one pixel erased, one set. -/
theorem test_drw : seen (run1 0xD011 (withPixel (withI (withBytes State.reset 0x300 [0xC0]) 0x300) 0 0))
    (fun t => (onAt t [(0, 0), (0, 1)], onCount t, readReg t 15)) = some ([false, true], 1, 1#8) := by decide +kernel
/-- V-D6: the bottom wraps to the top, both rows in column 0. -/
theorem test_drw_wraps : seen (run1 0xD012 (withI (withBytes (regs [(1, 0x1F)]) 0x300 [0x80, 0x80]) 0x300))
    (fun t => (onAt t [(31, 0), (0, 0)], onCount t, readReg t 15)) = some ([true, true], 2, 0#8) := by decide +kernel

/-! ### Keypad and timers -/

/-- V-K1, V-K5. -/
theorem test_skp : seen (run1 0xE59E (setKey { regs [(5, 10)] with pc := 0x300 } 10 true)) (fun t => (t.pc, t.keys[10]))
    = some (0x304#16, true)
    ∧ seen (run1 0xE09E (regs [(0, 0x10)])) (fun t => (t.status, t.pc)) = some (⟨true, 5, 0x10⟩, 0x200#16) := by decide
/-- V-K3, V-K6. -/
theorem test_sknp : seen (run1 0xE5A1 { regs [(5, 10)] with pc := 0x300 }) (·.pc) = some 0x304#16
    ∧ seen (run1 0xE0A1 (regs [(0, 0xFF)])) (·.status) = some ⟨true, 5, 0xFF⟩ := by decide
/-- V-K7, V-K8. -/
theorem test_ldVxK : seen (run1 0xF00A State.reset) (fun t => (t.pc, readReg t 0)) = some (0x200#16, 0#8)
    ∧ seen (run1 0xF00A (setKey State.reset 7 true)) (fun t => (t.pc, readReg t 0, t.keys[7]))
      = some (0x202#16, 7#8, false) := by decide
/-- V-K9: of two pressed keys, either under `any`, the first under `lowest`. -/
theorem test_ldVxK_two (d : Nat) : ((chooseKey .any d 3 [9]).1 = 3 ∨ (chooseKey .any d 3 [9]).1 = 9)
    ∧ (chooseKey .lowest d 3 [9]).1 = 3 := by
  refine ⟨?_, rfl⟩
  have h := chooseKey_mem .any d 3 [9]
  simpa using h
/-- V-K11. -/
theorem test_ldVxDt : seen (run1 0xF107 { State.reset with dt := 6 }) (fun t => (readReg t 1, t.dt)) = some (6#8, 6#8) := by
  decide
/-- V-K12. -/
theorem test_ldDtVx : seen (run1 0xF015 (regs [(0, 7)])) (fun t => (t.dt, t.st)) = some (7#8, 0#8) := by decide
/-- V-K13. -/
theorem test_ldStVx : seen (run1 0xF318 (regs [(3, 0x1E)])) (fun t => (t.st, t.dt)) = some (0x1E#8, 0#8) := by decide

/-! ### Events -/

/-- V-K15 and V-K16: the timers stop at zero and count from 0xFF. -/
theorem test_tick : (tickEvent { State.reset with dt := 2, st := 0 }).st = 0#8
    ∧ (tickEvent { State.reset with dt := 2, st := 1 }).dt = 1#8 ∧ (tickEvent { State.reset with dt := 0xFF }).dt = 0xFE#8 := by
  decide
/-- V-K17. -/
theorem test_key_set : (keySetEvent 7 true State.reset).keys[7] = true
    ∧ (keySetEvent 7 false (keySetEvent 7 true State.reset)) = State.reset := by decide
/-- V-R1: the first and the last glyph and what follows them. -/
theorem test_reset_memory : (List.range 5).map (byteAt State.reset.mem) = [0xF0#8, 0x90#8, 0x90#8, 0x90#8, 0xF0#8]
    ∧ (List.range 6).map (fun j => byteAt State.reset.mem (0x04B + j)) = [0xF0#8, 0x80#8, 0xF0#8, 0x80#8, 0x80#8, 0#8] := by
  decide
/-- V-R7: load never clears. -/
theorem test_load : (List.range 4).map (fun j =>
      byteAt (loadEvent [0xAA] (loadEvent [0x11, 0x22, 0x33] State.reset)).mem (0x200 + j))
    = [0xAA#8, 0x22#8, 0x33#8, 0#8] := by decide

/-- A store and its undoing leave equal memories: the canonical form. -/
theorem test_memory_canonical : storeBytes (storeBytes [] 0x300 [7, 8]) 0x300 [0, 0] = []
    ∧ setByte (setByte [] 5 1) 4 1 = setByte (setByte [] 4 1) 5 1 := by decide

/-! ### Witnesses: what meets the hypotheses of each obligation, at the ends of their ranges -/

theorem witness_DecodeOfEncode : (Instr.drw 15 0 15).wf = true := by decide
theorem witness_EncodeOfDecode : decode 0x8076#16 = .ok (.shr 0) ∧ decode 0xFFFF#16 ≠ .ok (.shr 0)
    ∧ decode 0x1FFF#16 = .ok (.jp 0xFFF#12) := by decide
theorem witness_DecodeFollowsOpcodeMap : rowOf .clr ∈ opcodeMap ∧ 0x00E0#16 &&& (rowOf .clr).mask = (rowOf .clr).value := by
  decide
theorem witness_OnlyShiftsIgnoreAField : decode 0x8AF0#16 = .ok (.ldReg 10 15)
    ∧ ∀ x, Instr.ldReg 10 15 ≠ .shr x ∧ Instr.ldReg 10 15 ≠ .shl x := by decide

/-- Reset, with the bytes of `6001` at PC. -/
def placed (pc : Word) : State := State.withFetchWord { State.reset with pc := pc } 16 0x6001

theorem witness_StepRunsDecodedInstruction : 
    ([0x000#16, 0x201#16, 0xFFE#16].all fun pc => decide ((placed pc).status.halted = false ∧ (placed pc).pc.toNat ≤ 0xFFE
      ∧ byteAt (placed pc).mem (placed pc).pc.toNat = 0x60 ∧ byteAt (placed pc).mem ((placed pc).pc.toNat + 1) = 0x01)) = true
      ∧ decodeBytes [0x60, 0x01] = .ok (.ldImm 0 0x01#8, []) := by decide
theorem witness_FetchFaultBeyondMemory : 
    ([0xFFF#16, 0x1000#16, 0xFFFF#16].all fun pc => decide ((State.status { State.reset with pc := pc }).halted = false
      ∧ 0xFFF ≤ (State.pc { State.reset with pc := pc }).toNat)) = true := by decide
theorem witness_InvalidOpcodeHalts : State.reset.status.halted = false ∧ State.reset.pc.toNat ≤ 0xFFE
    ∧ decode (wordAt State.reset.mem State.reset.pc.toNat) = .error (.family0 0#16)
    ∧ decode (wordAt [] 0xFFE) = .error (.family0 0#16) := by decide
theorem witness_PlacedWordIsRun : 
    ([0x000#16, 0xFFE#16].all fun pc => decide ((State.status { State.reset with pc := pc }).halted = false
      ∧ (State.pc { State.reset with pc := pc }).toNat ≤ 0xFFE)) = true
      ∧ decodeTableWord 16 0xF265 = some (.ldVxMem 2) := by decide
theorem witness_EveryStepAnswers : mayHappen (.load [0x12, 0x00]) System.start = true
    ∧ mayHappen .step System.start = true := by decide
theorem witness_FaultsExactlyUnderOwnCheck : State.reset.status.halted = false ∧ FaultsWhen State.reset .ret
    ∧ ¬ FaultsWhen State.reset (.call 0) :=
  ⟨rfl, rfl, by simp [FaultsWhen, State.reset]⟩
theorem witness_FaultsArePrecise : seen (step State.reset) (fun t => decide (t.status ≠ State.reset.status)) = some true := by
  decide
theorem witness_StackFaultsRecorded : State.reset.sp.val = 0 ∧ State.sp { State.reset with sp := 16 } = 16 := by decide
theorem witness_KeyIndexFaultRecorded : 15 < (readReg (regs [(0, 16)]) 0).toNat ∧ 15 < (readReg (regs [(15, 255)]) 15).toNat := by
  decide
/-- Each of the four forms with its range one byte too long, and DRW with one row at 4096. -/
theorem witness_RangeFaultRecorded :
    (0 < (15 : Height).val ∧ 4096 < (withI State.reset 0xFF2).i.toNat + (15 : Height).val)
      ∧ (0 < (1 : Height).val ∧ 4096 < (withI State.reset 0x1000).i.toNat + (1 : Height).val)
      ∧ 4096 < (withI State.reset 0xFFE).i.toNat + 3
      ∧ 4096 < (withI State.reset 0xFF1).i.toNat + ((15 : RegIdx).val + 1)
      ∧ 4096 < (withI State.reset 0x1000).i.toNat + ((0 : RegIdx).val + 1) := by decide

/-- A halted core after a step, with a timer running. -/
def haltedSystem : System := { core := takeFault .stackUnderflow { State.reset with dt := 2 }, stepped := true }

theorem witness_HaltLastsUntilReset : Event.reset ∉ [Event.step, .tick, .keySet 3 true]
    ∧ haltedSystem.core.status.halted = true ∧ haltedSystem.stepped = true
    ∧ (runEvents [.step, .tick, .keySet 3 true] haltedSystem).isSome = true := by decide

/-- Reset, with a number of live entries on the call stack. -/
def withDepth (n : Fin 17) : State := { State.reset with sp := n }

theorem witness_ReturnPopsAddress : (withDepth 1).sp.val = (0 : Fin 16).val + 1 ∧ (withDepth 16).sp.val = (15 : Fin 16).val + 1
    ∧ (withDepth 0).sp.val = 0 := by decide
theorem witness_ReturnPopsAddress_beyond : State.sp { withDepth 16 with stack := State.reset.stack.set 15 0x1000 } = 16
    ∧ (State.status { withDepth 16 with stack := State.reset.stack.set 15 0x1000 }).halted = false
    ∧ 4096 ≤ ((State.stack { withDepth 16 with stack := State.reset.stack.set 15 0x1000 })[(15 : Fin 16)]).toNat := by
  decide
theorem witness_JumpSetsPc : State.reset.status.halted = false ∧ State.reset.pc.toNat = (0x200#12).toNat := by decide
theorem witness_SkipsOnRegisters : 0x1#4 ≠ 0#4 ∧ 0xF#4 ≠ 0#4 := by decide
theorem witness_CallPushesReturn : (withDepth 0).sp.val = (0 : Fin 16).val ∧ (withDepth 15).sp.val = (15 : Fin 16).val := by
  decide
theorem witness_ReturnUndoesCall : (withDepth 0).sp.val < 16 ∧ (withDepth 15).sp.val < 16 := by decide

/-- For each arm of the table of R27 that has a premise, and for an instruction and a fetch that fault. -/
theorem witness_PcAfterEachInstruction :
    seen (exec .ret (withDepth 16)) (fun t => decide (t.status = (withDepth 16).status)) = some true
      ∧ seen (exec (.skp 0) (regs [(0, 15)])) (fun t => decide (t.status = State.reset.status)) = some true
      ∧ (15 : KeyIdx).val = (readReg (regs [(0, 15)]) 0).toNat
      ∧ (∀ k, keyPressed State.reset k = false) ∧ keyPressed (setKey State.reset 15 true) 15 = true
      ∧ seen (exec .ret State.reset) (fun t => decide (t.status ≠ State.reset.status)) = some true
      ∧ seen (step State.reset) (fun t => decide (t.status ≠ State.reset.status)) = some true := by decide

theorem witness_BcdStoresDigits : (withI State.reset 0xFFD).i.toNat ≤ 0xFFD := by decide
theorem witness_RegisterDump : (withI State.reset 0xFF0).i.toNat + (15 : RegIdx).val ≤ 0xFFF
    ∧ (withI State.reset 0xFFF).i.toNat + (0 : RegIdx).val ≤ 0xFFF := by decide
theorem witness_RegisterLoad : (withI State.reset 0xFF0).i.toNat + (15 : RegIdx).val ≤ 0xFFF
    ∧ (withI State.reset 0xFFF).i.toNat + (0 : RegIdx).val ≤ 0xFFF := by decide
theorem witness_DumpThenLoadRestores : (withI State.reset 0xFF0).i.toNat = (0xFF0#12).toNat
    ∧ (0xFF0#12).toNat + (15 : RegIdx).val ≤ 0xFFF := by decide

/-- PC two below I, V0 and V1 the bytes of `1206`. -/
def storeAhead : State := { withI (regs [(0, 0x12), (1, 0x06)]) 0xFFE with pc := 0xFFC }

theorem witness_StoreSeenByNextFetch : storeAhead.status.halted = false ∧ 1 ≤ (1 : RegIdx).val
    ∧ storeAhead.pc.toNat ≤ 0xFFC ∧ storeAhead.i.toNat = storeAhead.pc.toNat + 2
    ∧ storeAhead.i.toNat + (1 : RegIdx).val ≤ 0xFFF
    ∧ decode (wordOfBytes (readReg storeAhead 0) (readReg storeAhead 1)) = .ok (.jp 0x206#12) := by decide

theorem witness_DrawInvertsSpritePixels : ((0 : Height).val = 0 ∨ (withI State.reset 0xFFFF).i.toNat + (0 : Height).val ≤ 4096)
    ∧ ((1 : Height).val = 0 ∨ (withI State.reset 0xFFF).i.toNat + (1 : Height).val ≤ 4096)
    ∧ ((15 : Height).val = 0 ∨ (withI State.reset 0xFF1).i.toNat + (15 : Height).val ≤ 4096) := by decide

/-- A sprite that covers pixel (0, 0), which is off, and the same pixel on. -/
theorem witness_sprite_pixel : SpriteCovers State.reset.mem 0 0 0 5 0 0 ∧ pixelAt State.reset.fb 0 0 = false
    ∧ pixelAt (withPixel State.reset 0 0).fb 0 0 = true ∧ ¬ SpriteCovers State.reset.mem 0 0 0 0 0 0 :=
  ⟨⟨0, 0, by decide, by decide, by decide, by decide, by decide⟩, by decide, by decide,
    fun ⟨j, _, h, _⟩ => absurd h (Nat.not_lt_zero j)⟩

theorem witness_DrawTwiceRestores : (0 : RegIdx) ≠ 15 ∧ (1 : RegIdx) ≠ 15
    ∧ ((5 : Height).val = 0 ∨ State.reset.i.toNat + (5 : Height).val ≤ 4096)
    ∧ (∃ j b, j < (5 : Height).val ∧ b < 8 ∧ (byteAt State.reset.mem (State.reset.i.toNat + j)).getLsbD b = true)
    ∧ (∀ (r : Fin 32) (c : Fin 64), SpriteCovers State.reset.mem State.reset.i.toNat (readReg State.reset 0).toNat
        (readReg State.reset 1).toNat (5 : Height).val r.val c.val → pixelAt State.reset.fb r c = false) :=
  ⟨by decide, by decide, by decide, ⟨0, 7, by decide, by decide, by decide⟩,
    fun r c _ => by simp [pixelAt, State.reset]⟩

theorem witness_SkipsOnKeys : (readReg State.reset 0).toNat = (0 : KeyIdx).val
    ∧ (readReg (regs [(0, 15)]) 0).toNat = (15 : KeyIdx).val := by decide

/-- Reset, waiting at an F00A. -/
def waitingState : State := State.withFetchWord State.reset 16 0xF00A

theorem witness_KeyWaitWithoutKey : waitingState.status.halted = false ∧ Waiting waitingState := by decide
theorem witness_KeyWaitTakesPressedKey : ∃ k, keyPressed (setKey State.reset 15 true) k = true := ⟨15, by decide⟩
theorem witness_LoadCopiesImage : (List.replicate 3584 0#8).length ≤ 3584 ∧ 3584 < (List.replicate 3585 0#8).length := by
  simp only [List.length_replicate]; decide
theorem witness_ResetIsIdempotent : System.start.stepped = false := by decide
theorem witness_BootRunsFirstWord : (List.replicate 3582 0#8).length + 2 ≤ 3584
    ∧ decode (wordOfBytes 0x12 0x06) = .ok (.jp 0x206#12) := ⟨by simp only [List.length_replicate]; decide, by decide⟩
theorem witness_NoLoadAfterStep : Event.reset ∉ [Event.tick, .step] := by decide
theorem witness_OnlyNamedStateIsWritten :
    seen (exec (.ldVxMem 15) State.reset) (fun t => decide (t.status = State.reset.status)) = some true := by decide
theorem witness_SoundTimerIsNotRead : ∃ t, step State.reset = .next t := ⟨_, rfl⟩
theorem witness_DeadEntriesUnobservable : ∃ t, step (withDepth 1) = .next t
    ∧ LiveSame (withDepth 1).sp.val (withDepth 1) { withDepth 1 with stack := State.reset.stack.set 1 0xFFFF } := by
  refine ⟨_, rfl, ?_⟩
  intro j hj
  have : j.val = 0 := by exact Nat.lt_one_iff.mp hj
  have : j = 0 := Fin.ext this
  subst this; rfl

/-- Reset, parked at a jump to itself. -/
def parkedState : State := State.withFetchWord State.reset 16 0x1200

theorem witness_ParkedIsFixedPoint : GoodEnd parkedState := by decide
theorem witness_StepKeepsCoreInv : CoreInv State.reset ∧ ∃ t, step State.reset = .next t := ⟨by decide, _, rfl⟩
theorem witness_EveryRunKeepsCoreInv : CoreInv System.start.core
    ∧ (runEvents [.load [0x12, 0x00], .step, .tick, .keySet 3 true, .reset] System.start).isSome = true := by decide

end Sys2Proof.Tests
end

/-! ## Proofs: what a word decodes to gives the word back

Each format's word is rebuilt from its fields; so, family by family, encoding inverts decoding. SHR and SHL are the
exception, as their field `y` is ignored (30_encoding.md R104). -/

namespace Sys2Proof

/-! ### A word of each format is made of its fields -/

theorem formNNN_of_fields {w : Word} {op : BitVec 4} (hop : (opField w).toNat = op.toNat) :
    formNNN op (nnnField w) = w := by
  apply BitVec.eq_of_toNat_eq
  rw [formNNN_toNat, ← hop, opField_toNat, nnnField_toNat]; omega

theorem formXKK_of_fields {w : Word} {op : BitVec 4} (hop : (opField w).toNat = op.toNat) :
    formXKK op (xField w) (kkField w) = w := by
  apply BitVec.eq_of_toNat_eq
  rw [formXKK_toNat, ← hop, opField_toNat, xField_val, kkField_toNat]; omega

theorem formX_of_fields {w : Word} {op : BitVec 4} {k : Byte} (hop : (opField w).toNat = op.toNat)
    (hk : (kkField w).toNat = k.toNat) : formX op (xField w) k = w := by
  rw [← BitVec.eq_of_toNat_eq hk]
  exact formXKK_of_fields hop

theorem formXY_of_fields {w : Word} {op l : BitVec 4} (hop : (opField w).toNat = op.toNat)
    (hn : (nField w).val = l.toNat) : formXY op (xField w) (yField w) l = w := by
  apply BitVec.eq_of_toNat_eq
  rw [formXY_toNat, ← hop, ← hn, opField_toNat, xField_val, yField_val, nField_val]; omega

/-! ### Encoding inverts decoding, family by family -/

theorem encode_of_decodeFamily0 {w : Word} {i : Instr} (h : decodeFamily0 w = .ok i) : encode i = w := by
  unfold decodeFamily0 at h
  split_ifs at h with hclr hret
  · cases h; exact hclr.symm
  · cases h; exact hret.symm

theorem encode_of_decodeFamily8 {w : Word} {i : Instr} (hop : (opField w).toNat = 0x8)
    (h : decodeFamily8 w = .ok i) (hshift : ∀ x, i ≠ .shr x ∧ i ≠ .shl x) : encode i = w := by
  unfold decodeFamily8 at h
  split at h <;> cases h
  case h_7 => exact absurd rfl (hshift _).1
  case h_9 => exact absurd rfl (hshift _).2
  all_goals exact formXY_of_fields hop ‹_›

theorem encode_of_decodeFamilyE {w : Word} {i : Instr} (hop : (opField w).toNat = 0xE)
    (h : decodeFamilyE w = .ok i) : encode i = w := by
  unfold decodeFamilyE at h
  split at h <;> cases h
  all_goals exact formX_of_fields hop ‹_›

theorem encode_of_decodeFamilyF {w : Word} {i : Instr} (hop : (opField w).toNat = 0xF)
    (h : decodeFamilyF w = .ok i) : encode i = w := by
  unfold decodeFamilyF at h
  split at h <;> cases h
  all_goals exact formX_of_fields hop ‹_›

/-- Only SHR and SHL lose a field of their word (R104). -/
theorem encode_of_decode {w : Word} {i : Instr} (h : decode w = .ok i)
    (hshift : ∀ x, i ≠ .shr x ∧ i ≠ .shl x) : encode i = w := by
  unfold decode at h
  split at h
  case h_1 => exact encode_of_decodeFamily0 h
  case h_9 hop => exact encode_of_decodeFamily8 hop h hshift
  case h_15 hop => exact encode_of_decodeFamilyE hop h
  case h_16 =>
    have hop : (opField w).toNat = 0xF := by
      have := (opField w).isLt
      simp only [imp_false] at *
      omega
    exact encode_of_decodeFamilyF hop h
  case h_2 hop | h_3 hop | h_11 hop | h_12 hop => cases h; exact formNNN_of_fields hop
  case h_4 hop | h_5 hop | h_7 hop | h_8 hop | h_13 hop => cases h; exact formXKK_of_fields hop
  case h_14 hop => cases h; exact formXY_of_fields hop rfl
  case h_6 hop | h_10 hop =>
    split_ifs at h with hn
    cases h; exact formXY_of_fields hop (congrArg Fin.val hn)

/-! ### The ignored field of SHR and SHL -/

theorem decode_shr_word (x y : RegIdx) : decode (formXY 0x8#4 x y 0x6#4) = .ok (.shr x) := by
  simp [decode, decodeFamily8]

theorem decode_shl_word (x y : RegIdx) : decode (formXY 0x8#4 x y 0xE#4) = .ok (.shl x) := by
  simp [decode, decodeFamily8]

/-- Settles O5: an instruction that is no shift has the one word `encode` gives it. -/
theorem onlyShiftsIgnoreAField : Obligations.OnlyShiftsIgnoreAField := by
  refine ⟨fun x y => ⟨decode_shr_word x y, decode_shl_word x y⟩, fun w w' i hw hw' hshift => ?_⟩
  calc w = encode i := (encode_of_decode hw hshift).symm
    _ = w' := encode_of_decode hw' hshift

end Sys2Proof

/-! ## Proofs: control transfer by RET and JP

What a transfer changes and keeps, where JP and RET lead, and the fault of the fetch behind a transfer to an address at
which memory does not hold two bytes (40_cycle_and_control_transfer.md R121, R124, R125). -/

namespace Sys2Proof

open Machine Safety

/-! ### What a transfer keeps -/

theorem keepsExcept_setPc (s : State) (w : Word) : KeepsExcept [.pc] s (setPc s w) := by
  intro p hp
  cases p
  case pc => exact absurd (List.mem_singleton_self _) hp
  case v | mem => exact fun _ => rfl
  all_goals rfl

/-- The frame of a transfer that pushes or pops. -/
theorem keepsExcept_setPc_stack (s : State) (n : Fin (Config.stackDepth + 1)) (stk : Vector Word Config.stackDepth)
    (w : Word) : KeepsExcept [.pc, .sp, .stack] s (setPc { s with sp := n, stack := stk } w) := by
  intro p hp
  cases p
  case pc | sp | stack => simp at hp
  case v | mem => exact fun _ => rfl
  all_goals rfl

/-! ### Where JP and RET lead -/

@[simp] theorem zextAddr_toNat (a : Addr12) : (zextAddr a).toNat = a.toNat :=
  BitVec.toNat_setWidth_of_le (by decide)

theorem decode_jp_word (a : Addr12) : decode (formNNN 0x1#4 a) = .ok (.jp a) := by
  simp [decode]

theorem exec_jp (a : Addr12) (s : State) : exec (.jp a) s = .next (setPc s (zextAddr a)) := rfl

/-- A jump to its own address is no change (R125). -/
theorem setPc_zextAddr_self {a : Addr12} {s : State} (h : s.pc.toNat = a.toNat) : setPc s (zextAddr a) = s := by
  have hpc : zextAddr a = s.pc := BitVec.eq_of_toNat_eq (by rw [zextAddr_toNat, h])
  rw [hpc]; rfl

theorem exec_ret_pop {s : State} {j : Fin Config.stackDepth} (h : s.sp.val = j.val + 1) :
    exec .ret s = .next (setPc { s with sp := j.castSucc } s.stack[j]) := by
  obtain ⟨hsp, -⟩ | ⟨_, hret⟩ := execRet_cases s
  · omega
  · have hj : s.sp.val - 1 = j.val := by omega
    simp only [hj] at hret
    exact hret

theorem exec_ret_empty {s : State} (h : s.sp.val = 0) : exec .ret s = .next (takeFault .stackUnderflow s) := by
  obtain ⟨-, hret⟩ | ⟨hsp, -⟩ := execRet_cases s
  · exact hret
  · omega

/-! ### The fetch behind a transfer -/

theorem step_fetchFault {s : State} (hrun : s.status.halted = false) (hpc : 0xFFF ≤ s.pc.toNat) :
    step s = .next (takeFault (.addressFault (max s.pc.toNat 4096)) s) := by
  obtain ⟨hhalt, -⟩ | ⟨-, -, hstep⟩ | ⟨-, hlow, -⟩ := step_cases s
  · simp [hrun] at hhalt
  · exact hstep
  · omega

/-- Settles O18: the non-empty stack, then the empty one. -/
theorem returnPopsAddress : Obligations.ReturnPopsAddress := by
  refine ⟨by decide, fun s j hsp => ?_, fun s hsp => ⟨exec_ret_empty hsp, rfl⟩⟩
  refine ⟨_, exec_ret_pop hsp, rfl, rfl, fun _ _ => rfl, keepsExcept_setPc_stack _ _ _ _, fun hrun haddr => ?_⟩
  exact ⟨_, step_fetchFault hrun (le_trans (by decide) haddr), rfl, rfl⟩

/-- Settles O19: PC is all that a jump writes, so the fetch that follows reads at nnn. -/
theorem jumpSetsPc : Obligations.JumpSetsPc := by
  refine fun a s => ⟨decode_jp_word a, _, exec_jp a s, zextAddr_toNat a, keepsExcept_setPc _ _,
    setPc_zextAddr_self, ?_⟩
  rintro rfl hrun
  exact ⟨_, step_fetchFault hrun (le_of_eq (zextAddr_toNat 0xFFF#12).symm), rfl, rfl⟩

end Sys2Proof

/-! ## Proofs: the skips on registers

The words of SE and SNE, the words of families 5 and 9 that are none, and PC by the comparison (41_skips.md R140 to
R143). -/

namespace Sys2Proof

open Machine Safety

/-! ### The words of SE and SNE -/

theorem decode_seImm_word (x : RegIdx) (k : Byte) : decode (formXKK 0x3#4 x k) = .ok (.seImm x k) := by
  simp [decode]

theorem decode_sneImm_word (x : RegIdx) (k : Byte) : decode (formXKK 0x4#4 x k) = .ok (.sneImm x k) := by
  simp [decode]

theorem decode_seReg_word (x y : RegIdx) : decode (formXY 0x5#4 x y 0x0#4) = .ok (.seReg x y) := by
  simp [decode]

theorem decode_sneReg_word (x y : RegIdx) : decode (formXY 0x9#4 x y 0x0#4) = .ok (.sneReg x y) := by
  simp [decode]

/-- What decoding families 5 and 9 tests of the low nibble. -/
theorem nField_formXY_ne_zero {op l : BitVec 4} (hl : l ≠ 0#4) (x y : RegIdx) : nField (formXY op x y l) ≠ 0 := by
  rw [nField_formXY]
  exact fun h => hl (BitVec.eq_of_toFin_eq h)

theorem decode_family5_invalid {l : BitVec 4} (hl : l ≠ 0#4) (x y : RegIdx) :
    decode (formXY 0x5#4 x y l) = .error (.family5 (formXY 0x5#4 x y l)) := by
  simp only [decode, opField_formXY]
  exact if_neg (nField_formXY_ne_zero hl x y)

theorem decode_family9_invalid {l : BitVec 4} (hl : l ≠ 0#4) (x y : RegIdx) :
    decode (formXY 0x9#4 x y l) = .error (.family9 (formXY 0x9#4 x y l)) := by
  simp only [decode, opField_formXY]
  exact if_neg (nField_formXY_ne_zero hl x y)

/-! ### Where a skip leads -/

theorem exec_seImm (x : RegIdx) (k : Byte) (s : State) :
    exec (.seImm x k) s = .next (skipIf (readReg s x == k) s) := rfl

theorem exec_sneImm (x : RegIdx) (k : Byte) (s : State) :
    exec (.sneImm x k) s = .next (skipIf (readReg s x != k) s) := rfl

theorem exec_seReg (x y : RegIdx) (s : State) :
    exec (.seReg x y) s = .next (skipIf (readReg s x == readReg s y) s) := rfl

theorem exec_sneReg (x y : RegIdx) (s : State) :
    exec (.sneReg x y) s = .next (skipIf (readReg s x != readReg s y) s) := rfl

theorem keepsExcept_skipIf (c : Bool) (s : State) : KeepsExcept [.pc] s (skipIf c s) := keepsExcept_setPc s _

theorem skipIf_beq_pc (a b : Byte) (s : State) :
    (skipIf (a == b) s).pc = if a.toNat = b.toNat then s.pc + 4 else s.pc + 2 := by
  simp only [skipIf_pc, beq_iff_eq, BitVec.toNat_inj]

theorem skipIf_bne_pc (a b : Byte) (s : State) :
    (skipIf (a != b) s).pc = if a.toNat = b.toNat then s.pc + 2 else s.pc + 4 := by
  simp only [skipIf_pc, bne_iff_ne, ite_not, BitVec.toNat_inj]

/-- Settles O23: each of the four is `skipIf` of a comparison, which writes PC alone. -/
theorem skipsOnRegisters : Obligations.SkipsOnRegisters := by
  refine fun x y k s => ⟨?words, fun l hl => ?lowNibble, ?seImm, ?sneImm, ?seReg, ?sneReg⟩
  case words =>
    exact ⟨decode_seImm_word x k, decode_sneImm_word x k, decode_seReg_word x y, decode_sneReg_word x y⟩
  case lowNibble => exact ⟨⟨_, decode_family5_invalid hl x y⟩, _, decode_family9_invalid hl x y⟩
  case seImm => exact ⟨_, exec_seImm x k s, keepsExcept_skipIf _ s, skipIf_beq_pc _ _ s⟩
  case sneImm => exact ⟨_, exec_sneImm x k s, keepsExcept_skipIf _ s, skipIf_bne_pc _ _ s⟩
  case seReg => exact ⟨_, exec_seReg x y s, keepsExcept_skipIf _ s, skipIf_beq_pc _ _ s⟩
  case sneReg => exact ⟨_, exec_sneReg x y s, keepsExcept_skipIf _ s, skipIf_bne_pc _ _ s⟩

end Sys2Proof

/-! ## Proofs: LD and ADD with an immediate byte

Both write one register and advance PC, so they share the frame of such a write; neither writes a flag
(42_immediate_and_random.md R150, R151). -/

namespace Sys2Proof

open Machine Safety

/-! ### The words of LD and ADD -/

theorem decode_ldImm_word (x : RegIdx) (k : Byte) : decode (formXKK 0x6#4 x k) = .ok (.ldImm x k) := by
  simp [decode]

theorem decode_addImm_word (x : RegIdx) (k : Byte) : decode (formXKK 0x7#4 x k) = .ok (.addImm x k) := by
  simp [decode]

/-! ### What writing one register changes and keeps -/

theorem exec_ldImm (x : RegIdx) (k : Byte) (s : State) :
    exec (.ldImm x k) s = .next (advance (writeReg s x k)) := rfl

theorem exec_addImm (x : RegIdx) (k : Byte) (s : State) :
    exec (.addImm x k) s = .next (advance (writeReg s x (readReg s x + k))) := rfl

theorem readReg_advance_writeReg_same (s : State) (x : RegIdx) (b : Byte) :
    readReg (advance (writeReg s x b)) x = b := by
  rw [readReg_advance, readReg_writeReg_same]

theorem regsExcept_advance_writeReg (s : State) (x : RegIdx) (b : Byte) :
    RegsExcept [x] s (advance (writeReg s x b)) := by
  intro r hr
  rw [readReg_advance, readReg_writeReg_other s b (List.ne_of_not_mem_cons hr)]

theorem keepsExcept_advance_writeReg (s : State) (x : RegIdx) (b : Byte) :
    KeepsExcept [.pc, .v] s (advance (writeReg s x b)) := by
  intro p hp
  cases p
  case pc | v => simp at hp
  case mem => exact fun _ => rfl
  all_goals rfl

/-- Settles O25: the byte written is kk itself. -/
theorem loadImmediateSetsVx : Obligations.LoadImmediateSetsVx := fun x k s =>
  ⟨decode_ldImm_word x k, _, exec_ldImm x k s, readReg_advance_writeReg_same s x k,
    regsExcept_advance_writeReg s x k, rfl, keepsExcept_advance_writeReg s x k⟩

/-- Settles O26: the byte written is the sum of two bytes, which wraps at 256. -/
theorem addImmediateWrapsNoFlag : Obligations.AddImmediateWrapsNoFlag := by
  refine fun x k s => ⟨decode_addImm_word x k, _, exec_addImm x k s, ?sum,
    regsExcept_advance_writeReg s x _, rfl, keepsExcept_advance_writeReg s x _⟩
  case sum => rw [readReg_advance_writeReg_same, BitVec.toNat_add]

end Sys2Proof

/-! ## Proofs: the copy and the bitwise operations between registers

LD, OR, AND and XOR write one byte made of Vx and Vy to Vx and advance PC, so they share the frame of such a write, and
none of them writes a flag (43_alu.md R161 to R164). -/

namespace Sys2Proof

open Machine Safety

/-! ### The words of the copy and the bitwise operations -/

theorem decode_ldReg_word (x y : RegIdx) : decode (formXY 0x8#4 x y 0x0#4) = .ok (.ldReg x y) := by
  simp [decode, decodeFamily8]

theorem decode_orReg_word (x y : RegIdx) : decode (formXY 0x8#4 x y 0x1#4) = .ok (.orReg x y) := by
  simp [decode, decodeFamily8]

theorem decode_andReg_word (x y : RegIdx) : decode (formXY 0x8#4 x y 0x2#4) = .ok (.andReg x y) := by
  simp [decode, decodeFamily8]

theorem decode_xorReg_word (x y : RegIdx) : decode (formXY 0x8#4 x y 0x3#4) = .ok (.xorReg x y) := by
  simp [decode, decodeFamily8]

/-! ### The byte each writes to Vx -/

theorem exec_ldReg (x y : RegIdx) (s : State) :
    exec (.ldReg x y) s = .next (advance (writeReg s x (readReg s y))) := rfl

theorem exec_orReg (x y : RegIdx) (s : State) :
    exec (.orReg x y) s = .next (advance (writeReg s x (readReg s x ||| readReg s y))) := rfl

theorem exec_andReg (x y : RegIdx) (s : State) :
    exec (.andReg x y) s = .next (advance (writeReg s x (readReg s x &&& readReg s y))) := rfl

theorem exec_xorReg (x y : RegIdx) (s : State) :
    exec (.xorReg x y) s = .next (advance (writeReg s x (readReg s x ^^^ readReg s y))) := rfl

/-- The frame the four share: R161 to R164 each change Vx and PC alone. -/
theorem frame_advance_writeReg (s : State) (x : RegIdx) (b : Byte) :
    RegsExcept [x] s (advance (writeReg s x b)) ∧ (advance (writeReg s x b)).pc = s.pc + 2
      ∧ KeepsExcept [.pc, .v] s (advance (writeReg s x b)) :=
  ⟨regsExcept_advance_writeReg s x b, rfl, keepsExcept_advance_writeReg s x b⟩

/-- Settles O28: Vx reads as the byte written, whose bits are those of the operation. -/
theorem copyAndBitwise : Obligations.CopyAndBitwise := by
  refine fun x y s => ⟨?words, ?copy, ?or, ?and, ?xor⟩
  case words => exact ⟨decode_ldReg_word x y, decode_orReg_word x y, decode_andReg_word x y, decode_xorReg_word x y⟩
  case copy =>
    exact ⟨_, exec_ldReg x y s, readReg_advance_writeReg_same s x _, frame_advance_writeReg s x _⟩
  case or =>
    refine ⟨_, exec_orReg x y s, fun b _ => ?_, frame_advance_writeReg s x _⟩
    rw [readReg_advance_writeReg_same, BitVec.getLsbD_or]
  case and =>
    refine ⟨_, exec_andReg x y s, fun b _ => ?_, frame_advance_writeReg s x _⟩
    rw [readReg_advance_writeReg_same, BitVec.getLsbD_and]
  case xor =>
    refine ⟨_, exec_xorReg x y s, fun b _ => ?_, frame_advance_writeReg s x _⟩
    rw [readReg_advance_writeReg_same, BitVec.getLsbD_xor]

end Sys2Proof

/-! ## Proofs: the load of the index register

LD I writes one value to I and advances PC, and touches no memory; the frame is stated for any value written to I
(44_index_and_memory.md R181). -/

namespace Sys2Proof

open Machine Safety

theorem decode_ldI_word (a : Addr12) : decode (formNNN 0xA#4 a) = .ok (.ldI a) := by
  simp [decode]

theorem exec_ldI (a : Addr12) (s : State) : exec (.ldI a) s = .next (advance (setIndex s (zextAddr a))) := rfl

/-- The frame of an instruction that writes I alone. -/
theorem keepsExcept_advance_setIndex (s : State) (w : Word) : KeepsExcept [.pc, .i] s (advance (setIndex s w)) := by
  intro p hp
  cases p
  case pc | i => simp at hp
  case v | mem => exact fun _ => rfl
  all_goals rfl

/-- Settles O33: I becomes the 12-bit address with zeros above it, so it reads as nnn. -/
theorem loadIndexSetsI : Obligations.LoadIndexSetsI := fun a s =>
  ⟨decode_ldI_word a, _, exec_ldI a s, zextAddr_toNat a, rfl, keepsExcept_advance_setIndex s _⟩

end Sys2Proof

/-! ## Proofs: the clear of the display

CLR writes the blank grid to FB and advances PC; it writes no register, so VF stays. The frame is stated for any grid
written to FB (45_display.md R200). -/

namespace Sys2Proof

open Machine Safety

theorem decode_clr_word : decode 0x00E0#16 = .ok .clr := by decide

theorem exec_clr (s : State) : exec .clr s = .next (advance { s with fb := blankGrid }) := rfl

/-- The frame of an instruction that writes FB alone. -/
theorem keepsExcept_advance_setFb (s : State) (g : Grid) : KeepsExcept [.pc, .fb] s (advance { s with fb := g }) := by
  intro p hp
  cases p
  case pc | fb => simp at hp
  case v | mem => exact fun _ => rfl
  all_goals rfl

/-- Settles O40: FB becomes the blank grid, whose pixels all read off. -/
theorem clearTurnsAllOff : Obligations.ClearTurnsAllOff :=
  ⟨decode_clr_word, fun s => ⟨_, exec_clr s, pixelAt_blankGrid, rfl, keepsExcept_advance_setFb s _⟩⟩

end Sys2Proof

/-! ## Proofs: the reset event in a run

A reset has a move from every system and leaves the reset image in memory, whatever went before it
(70_reset_and_hazards.md R260, R261). -/

namespace Sys2Proof

open Machine

/-! ### What a reset leaves -/

theorem resetEvent_resetEvent (s : State) : resetEvent (resetEvent s) = resetEvent s := rfl

theorem byteAt_resetEvent (s : State) (a : Nat) : byteAt (resetEvent s).mem a = resetByte a := rfl

/-- The glyph table ends below 0x050 (R36). -/
theorem resetByte_above_glyphs {a : Nat} (h : 0x50 ≤ a) : resetByte a = 0 :=
  if_neg (Nat.not_lt.mpr h)

/-! ### The moves of reset and load, and a run's first move -/

theorem systemMove_reset (y : System) : systemMove .reset y = some ⟨resetEvent y.core, false⟩ := rfl

theorem systemMove_load {y : System} (h : y.stepped = false) (bytes : List Byte) :
    systemMove (.load bytes) y = some ⟨loadEvent bytes y.core, y.stepped⟩ :=
  if_pos (by simp [mayHappen, h])

theorem runEvents_cons {e : Event} {y z : System} (h : systemMove e y = some z) (es : List Event) :
    runEvents (e :: es) y = runEvents es z := by
  simp only [runEvents, h]

theorem runEvents_reset (y : System) (es : List Event) :
    runEvents (.reset :: es) y = runEvents es ⟨resetEvent y.core, false⟩ :=
  runEvents_cons (systemMove_reset y) es

/-- Settles O50: the second reset finds a core that is already reset, and the one after a load does not depend on the
bytes loaded. -/
theorem resetIsIdempotent : Obligations.ResetIsIdempotent := by
  refine fun y bytes => ⟨⟨resetEvent y.core, false⟩, runEvents_reset y [], ?twice, fun hload => ?erased⟩
  case twice =>
    calc runEvents [.reset, .reset] y
        = runEvents [.reset] ⟨resetEvent y.core, false⟩ := runEvents_reset y _
      _ = some ⟨resetEvent (resetEvent y.core), false⟩ := runEvents_reset _ []
      _ = some ⟨resetEvent y.core, false⟩ := by rw [resetEvent_resetEvent]
  case erased =>
    refine ⟨⟨resetEvent (loadEvent bytes y.core), false⟩, ?_, fun a ha => ?_⟩
    · rw [runEvents_cons (systemMove_load hload bytes), runEvents_reset, runEvents]
    · rw [byteAt_resetEvent]
      exact resetByte_above_glyphs (by omega)

end Sys2Proof

/-! ## Proofs: decoding inverts encoding

One lemma for each word form of 30_encoding.md R96, that the decoder reads it; the instructions whose lemma stands above are
not repeated. -/

namespace Sys2Proof

/-! ### The remaining words of R96 -/

theorem decode_ret_word : decode 0x00EE#16 = .ok .ret := by decide

theorem decode_call_word (a : Addr12) : decode (formNNN 0x2#4 a) = .ok (.call a) := by simp [decode]

theorem decode_jpV0_word (a : Addr12) : decode (formNNN 0xB#4 a) = .ok (.jpV0 a) := by simp [decode]

theorem decode_rnd_word (x : RegIdx) (k : Byte) : decode (formXKK 0xC#4 x k) = .ok (.rnd x k) := by simp [decode]

theorem decode_drw_word (x y : RegIdx) (n : Height) : decode (formXY 0xD#4 x y (bits4 n)) = .ok (.drw x y n) := by
  simp [decode, bits4]

theorem decode_addReg_word (x y : RegIdx) : decode (formXY 0x8#4 x y 0x4#4) = .ok (.addReg x y) := by
  simp [decode, decodeFamily8]

theorem decode_subReg_word (x y : RegIdx) : decode (formXY 0x8#4 x y 0x5#4) = .ok (.subReg x y) := by
  simp [decode, decodeFamily8]

theorem decode_subnReg_word (x y : RegIdx) : decode (formXY 0x8#4 x y 0x7#4) = .ok (.subnReg x y) := by
  simp [decode, decodeFamily8]

theorem decode_skp_word (x : RegIdx) : decode (formX 0xE#4 x 0x9E#8) = .ok (.skp x) := by
  simp [decode, decodeFamilyE]

theorem decode_sknp_word (x : RegIdx) : decode (formX 0xE#4 x 0xA1#8) = .ok (.sknp x) := by
  simp [decode, decodeFamilyE]

theorem decode_ldVxDt_word (x : RegIdx) : decode (formX 0xF#4 x 0x07#8) = .ok (.ldVxDt x) := by
  simp [decode, decodeFamilyF]

theorem decode_ldVxK_word (x : RegIdx) : decode (formX 0xF#4 x 0x0A#8) = .ok (.ldVxK x) := by
  simp [decode, decodeFamilyF]

theorem decode_ldDtVx_word (x : RegIdx) : decode (formX 0xF#4 x 0x15#8) = .ok (.ldDtVx x) := by
  simp [decode, decodeFamilyF]

theorem decode_ldStVx_word (x : RegIdx) : decode (formX 0xF#4 x 0x18#8) = .ok (.ldStVx x) := by
  simp [decode, decodeFamilyF]

theorem decode_addI_word (x : RegIdx) : decode (formX 0xF#4 x 0x1E#8) = .ok (.addI x) := by
  simp [decode, decodeFamilyF]

theorem decode_ldF_word (x : RegIdx) : decode (formX 0xF#4 x 0x29#8) = .ok (.ldF x) := by
  simp [decode, decodeFamilyF]

theorem decode_ldB_word (x : RegIdx) : decode (formX 0xF#4 x 0x33#8) = .ok (.ldB x) := by
  simp [decode, decodeFamilyF]

theorem decode_ldMemVx_word (x : RegIdx) : decode (formX 0xF#4 x 0x55#8) = .ok (.ldMemVx x) := by
  simp [decode, decodeFamilyF]

theorem decode_ldVxMem_word (x : RegIdx) : decode (formX 0xF#4 x 0x65#8) = .ok (.ldVxMem x) := by
  simp [decode, decodeFamilyF]

/-! ### Decoding inverts encoding, instruction by instruction -/

theorem decode_encode : ∀ i : Instr, decode (encode i) = .ok i
  | .clr => decode_clr_word
  | .ret => decode_ret_word
  | .jp a => decode_jp_word a
  | .call a => decode_call_word a
  | .seImm x k => decode_seImm_word x k
  | .sneImm x k => decode_sneImm_word x k
  | .seReg x y => decode_seReg_word x y
  | .ldImm x k => decode_ldImm_word x k
  | .addImm x k => decode_addImm_word x k
  | .ldReg x y => decode_ldReg_word x y
  | .orReg x y => decode_orReg_word x y
  | .andReg x y => decode_andReg_word x y
  | .xorReg x y => decode_xorReg_word x y
  | .addReg x y => decode_addReg_word x y
  | .subReg x y => decode_subReg_word x y
  | .shr x => decode_shr_word x 0
  | .subnReg x y => decode_subnReg_word x y
  | .shl x => decode_shl_word x 0
  | .sneReg x y => decode_sneReg_word x y
  | .ldI a => decode_ldI_word a
  | .jpV0 a => decode_jpV0_word a
  | .rnd x k => decode_rnd_word x k
  | .drw x y n => decode_drw_word x y n
  | .skp x => decode_skp_word x
  | .sknp x => decode_sknp_word x
  | .ldVxDt x => decode_ldVxDt_word x
  | .ldVxK x => decode_ldVxK_word x
  | .ldDtVx x => decode_ldDtVx_word x
  | .ldStVx x => decode_ldStVx_word x
  | .addI x => decode_addI_word x
  | .ldF x => decode_ldF_word x
  | .ldB x => decode_ldB_word x
  | .ldMemVx x => decode_ldMemVx_word x
  | .ldVxMem x => decode_ldVxMem_word x

theorem decodeBytes_of_decode {w : Word} {i : Instr} (h : decode w = .ok i) (rest : List Byte) :
    decodeBytes (hiByte w :: loByte w :: rest) = .ok (i, rest) := by
  simp only [decodeBytes, wordOfBytes_bytes, h]

/-- Settles O1: by the lemma of each instruction's word; the two bytes are the word's, high byte first. -/
theorem decodeOfEncode : Obligations.DecodeOfEncode := fun i rest _ =>
  ⟨decode_encode i, decodeBytes_of_decode (decode_encode i) rest⟩

/-- Settles O6: closed words, by evaluation of the decoder. -/
theorem sampleWordsDecode : Obligations.SampleWordsDecode := by
  unfold Obligations.SampleWordsDecode
  decide

end Sys2Proof

/-! ## Proofs: the opcode map and the invalid words

A masked word keeps the fields its mask covers. So a word with the masked bits of a row has that row's form, and the
decoder reads it as an instruction of the row (30_encoding.md R96); the words of no row are the invalid ones of R100. -/

namespace Sys2Proof

/-! ### SHR and SHL, whose word is not given back -/

theorem formXY_masked_y (op : BitVec 4) (x y : RegIdx) (l : BitVec 4) :
    formXY op x y l &&& 0xFF0F#16 = formXY op x 0 l := by
  apply BitVec.eq_of_getLsbD_eq; intro i hi
  simp only [formXY, BitVec.getLsbD_and, BitVec.getLsbD_append]
  interval_cases i <;> simp [bits4]

/-- A word of format XY with its field `y` at 0. -/
theorem formXY_without_y {w : Word} {op l : BitVec 4} (hop : (opField w).toNat = op.toNat)
    (hn : (nField w).val = l.toNat) : formXY op (xField w) 0 l = w &&& 0xFF0F#16 :=
  calc formXY op (xField w) 0 l
      = formXY op (xField w) (yField w) l &&& 0xFF0F#16 := (formXY_masked_y ..).symm
    _ = w &&& 0xFF0F#16 := by rw [formXY_of_fields hop hn]

theorem opField_of_decode_shift {w : Word} {i : Instr} {x : RegIdx} (h : decode w = .ok i)
    (hshift : i = .shr x ∨ i = .shl x) : (opField w).toNat = 0x8 := by
  unfold decode at h
  split at h
  case h_9 hop => exact hop
  case h_1 => unfold decodeFamily0 at h; split_ifs at h <;> cases h <;> simp at hshift
  case h_15 => unfold decodeFamilyE at h; split at h <;> cases h <;> simp at hshift
  case h_16 => unfold decodeFamilyF at h; split at h <;> cases h <;> simp at hshift
  case h_6 | h_10 => split_ifs at h; cases h; simp at hshift
  all_goals cases h; simp at hshift

theorem encode_of_decodeFamily8_shift {w : Word} {i : Instr} {x : RegIdx} (hop : (opField w).toNat = 0x8)
    (h : decodeFamily8 w = .ok i) (hshift : i = .shr x ∨ i = .shl x) : encode i = w &&& 0xFF0F#16 := by
  unfold decodeFamily8 at h
  split at h <;> cases h
  case h_7 hn | h_9 hn => exact formXY_without_y hop hn
  all_goals simp at hshift

theorem encode_of_decode_shift {w : Word} {i : Instr} {x : RegIdx} (h : decode w = .ok i)
    (hshift : i = .shr x ∨ i = .shl x) : encode i = w &&& 0xFF0F#16 := by
  have hop := opField_of_decode_shift h hshift
  refine encode_of_decodeFamily8_shift hop ?_ hshift
  simpa only [decode, hop] using h

/-- Settles O2: the shifts are the one exception. -/
theorem encodeOfDecode : Obligations.EncodeOfDecode := fun _ _ h =>
  ⟨fun ⟨_, hshift⟩ => encode_of_decode_shift h hshift, encode_of_decode h⟩

/-! ### From an instruction to its row -/

open Laws in
theorem encode_masked : ∀ i : Instr, encode i &&& (rowOf i).mask = (rowOf i).value
  | .clr => RowMatch.clr.2
  | .ret => RowMatch.ret.2
  | .jp a => (RowMatch.jp a).2
  | .call a => (RowMatch.call a).2
  | .seImm x k => (RowMatch.seImm x k).2
  | .sneImm x k => (RowMatch.sneImm x k).2
  | .seReg x y => (RowMatch.seReg x y).2
  | .ldImm x k => (RowMatch.ldImm x k).2
  | .addImm x k => (RowMatch.addImm x k).2
  | .ldReg x y => (RowMatch.ldReg x y).2
  | .orReg x y => (RowMatch.orReg x y).2
  | .andReg x y => (RowMatch.andReg x y).2
  | .xorReg x y => (RowMatch.xorReg x y).2
  | .addReg x y => (RowMatch.addReg x y).2
  | .subReg x y => (RowMatch.subReg x y).2
  | .shr x => (RowMatch.shr x).2
  | .subnReg x y => (RowMatch.subnReg x y).2
  | .shl x => (RowMatch.shl x).2
  | .sneReg x y => (RowMatch.sneReg x y).2
  | .ldI a => (RowMatch.ldI a).2
  | .jpV0 a => (RowMatch.jpV0 a).2
  | .rnd x k => (RowMatch.rnd x k).2
  | .drw x y n => (RowMatch.drw x y n).2
  | .skp x => (RowMatch.skp x).2
  | .sknp x => (RowMatch.sknp x).2
  | .ldVxDt x => (RowMatch.ldVxDt x).2
  | .ldVxK x => (RowMatch.ldVxK x).2
  | .ldDtVx x => (RowMatch.ldDtVx x).2
  | .ldStVx x => (RowMatch.ldStVx x).2
  | .addI x => (RowMatch.addI x).2
  | .ldF x => (RowMatch.ldF x).2
  | .ldB x => (RowMatch.ldB x).2
  | .ldMemVx x => (RowMatch.ldMemVx x).2
  | .ldVxMem x => (RowMatch.ldVxMem x).2

/-- The row's mask does not cover the field `y` that a shift ignores. -/
theorem masked_of_decode {w : Word} {i : Instr} (h : decode w = .ok i) : w &&& (rowOf i).mask = (rowOf i).value := by
  by_cases hshift : ∃ x, i = .shr x ∨ i = .shl x
  · obtain ⟨x, hx⟩ := hshift
    have hmask : 0xFF0F#16 &&& (rowOf i).mask = (rowOf i).mask := by
      rcases hx with rfl | rfl <;> exact (by decide : 0xFF0F#16 &&& 0xF00F#16 = 0xF00F#16)
    rw [← encode_masked i, encode_of_decode_shift h hx, BitVec.and_assoc, hmask]
  · simp only [not_exists, not_or] at hshift
    rw [← encode_masked i, encode_of_decode h hshift]

/-! ### From a row to the fields its mask covers -/

theorem opField_of_masked {w v : Word} (h : w &&& 0xF000#16 = v) : (opField w).toNat = v.toNat / 4096 := by
  rw [← opField_toNat, ← h, ← formNNN_of_fields (w := w) rfl, formNNN_masked, opField_formNNN, opField_formNNN]

theorem fields_of_masked_n {w v : Word} (h : w &&& 0xF00F#16 = v) :
    (opField w).toNat = v.toNat / 4096 ∧ (nField w).val = v.toNat % 16 := by
  rw [← opField_toNat, ← nField_val, ← h, ← formXY_of_fields (w := w) (l := bits4 (nField w)) rfl rfl, formXY_masked]
  simp only [opField_formXY, nField_formXY, and_self]

theorem fields_of_masked_kk {w v : Word} (h : w &&& 0xF0FF#16 = v) :
    (opField w).toNat = v.toNat / 4096 ∧ (kkField w).toNat = v.toNat % 256 := by
  rw [← opField_toNat, ← kkField_toNat, ← h, ← formX_of_fields (w := w) rfl rfl, formX_masked]
  simp only [opField_formX, kkField_formX, and_self]

/-- The selectors of R95 are the fields the masks cover: the top nibble alone, with the low nibble, with the low byte, or
the whole word. -/
theorem decode_of_masked {w : Word} (j : Instr) (h : w &&& (rowOf j).mask = (rowOf j).value) :
    ∃ i, decode w = .ok i ∧ rowOf i = rowOf j := by
  cases j
  case clr | ret =>
    obtain rfl := BitVec.and_allOnes.symm.trans h
    exact ⟨_, rfl, rfl⟩
  case jp | call | seImm | sneImm | ldImm | addImm | ldI | jpV0 | rnd | drw =>
    have hop := opField_of_masked h
    simp [decode, hop, rowOf]
  case seReg | sneReg =>
    obtain ⟨hop, hn⟩ := fields_of_masked_n h
    simp [decode, hop, Fin.ext_iff, hn, rowOf]
  case ldReg | orReg | andReg | xorReg | addReg | subReg | shr | subnReg | shl =>
    obtain ⟨hop, hn⟩ := fields_of_masked_n h
    simp [decode, decodeFamily8, hop, hn, rowOf]
  case skp | sknp =>
    obtain ⟨hop, hkk⟩ := fields_of_masked_kk h
    simp [decode, decodeFamilyE, hop, hkk, rowOf]
  case ldVxDt | ldVxK | ldDtVx | ldStVx | addI | ldF | ldB | ldMemVx | ldVxMem =>
    obtain ⟨hop, hkk⟩ := fields_of_masked_kk h
    simp [decode, decodeFamilyF, hop, hkk, rowOf]

theorem decode_row_iff (w : Word) (j : Instr) :
    (∃ i, decode w = .ok i ∧ rowOf i = rowOf j) ↔ w &&& (rowOf j).mask = (rowOf j).value :=
  ⟨fun ⟨_, hdecode, hrow⟩ => hrow ▸ masked_of_decode hdecode, decode_of_masked j⟩

/-- Settles O3: two rows that match a word are both the row of the instruction it decodes to. -/
theorem decodeFollowsOpcodeMap : Obligations.DecodeFollowsOpcodeMap := by
  refine ⟨rfl, decode_row_iff, fun w r r' hr hr' hw hw' => ?_⟩
  obtain ⟨j, -, rfl⟩ := List.mem_map.mp hr
  obtain ⟨j', -, rfl⟩ := List.mem_map.mp hr'
  obtain ⟨i, hi, hrow⟩ := decode_of_masked j hw
  obtain ⟨i', hi', hrow'⟩ := decode_of_masked j' hw'
  obtain rfl : i = i' := Except.ok.inj (hi.symm.trans hi')
  exact hrow.symm.trans hrow'

/-! ### The words the decoder refuses, family by family -/

theorem decodeFamily0_error_iff (w : Word) :
    (∃ e, decodeFamily0 w = .error e) ↔ w.toNat ≠ 0x00E0 ∧ w.toNat ≠ 0x00EE := by
  have hclr : w = 0x00E0#16 ↔ w.toNat = 0x00E0 := BitVec.toNat_inj.symm
  have hret : w = 0x00EE#16 ↔ w.toNat = 0x00EE := BitVec.toNat_inj.symm
  unfold decodeFamily0
  split_ifs <;> simp_all

theorem decodeFamily8_error_iff (w : Word) :
    (∃ e, decodeFamily8 w = .error e) ↔ w.toNat % 16 ∈ [0x8, 0x9, 0xA, 0xB, 0xC, 0xD, 0xF] := by
  rw [← nField_val]
  generalize hn : nField w = n
  unfold decodeFamily8
  rw [hn]
  fin_cases n <;> simp

theorem decodeFamilyE_error_iff (w : Word) :
    (∃ e, decodeFamilyE w = .error e) ↔ w.toNat % 256 ∉ [0x9E, 0xA1] := by
  rw [← kkField_toNat]
  unfold decodeFamilyE
  split <;> simp_all

theorem decodeFamilyF_error_iff (w : Word) : (∃ e, decodeFamilyF w = .error e) ↔
    w.toNat % 256 ∉ [0x07, 0x0A, 0x15, 0x18, 0x1E, 0x29, 0x33, 0x55, 0x65] := by
  rw [← kkField_toNat]
  unfold decodeFamilyF
  split <;> simp_all

/-- The test of families 0x5 and 0x9. -/
theorem lowNibble_error_iff (w : Word) (i : Instr) (e : DecodeError) :
    (∃ e', (if nField w = 0 then .ok i else .error e : Except DecodeError Instr) = .error e') ↔ w.toNat % 16 ≠ 0 := by
  have hn : nField w = 0 ↔ w.toNat % 16 = 0 := by rw [← nField_val, Fin.val_eq_zero_iff]
  by_cases h : nField w = 0
  · simp [h, hn.mp h]
  · simp [h, mt hn.mpr h]

/-- Settles O4: each family has its own selector; a family whose every word decodes has no line in the table. -/
theorem invalidWordsExactly : Obligations.InvalidWordsExactly := by
  intro w
  have hlt : w.toNat / 4096 < 16 := by have := w.isLt; omega
  unfold decode
  rw [opField_toNat]
  split
  case h_1 hop => rw [decodeFamily0_error_iff]; omega
  case h_6 hop | h_10 hop => rw [lowNibble_error_iff]; omega
  case h_9 hop => rw [decodeFamily8_error_iff]; simp [hop]
  case h_15 hop => rw [decodeFamilyE_error_iff]; simp [hop]
  case h_16 =>
    have hop : w.toNat / 4096 = 0xF := by
      simp only [imp_false] at *
      omega
    rw [decodeFamilyF_error_iff]; simp [hop]
  all_goals rename_i hop; simp [hop]

end Sys2Proof

/-! ## Proofs: what an instruction can do

An instruction takes the fault of its own check, or completes and writes the state its tables name (60_exceptions.md R231,
R236; 10_state.md R22 to R34). The whole-machine statements follow from these two lemmas, and so does the frame of every
instruction below. -/

namespace Sys2Proof

open Machine Safety

/-! ### A state with some pieces changed -/

/-- `s` with the pieces of state listed taken from `t`. -/
def withParts (parts : List Part) (s t : State) : State where
  v := if .v ∈ parts then t.v else s.v
  i := if .i ∈ parts then t.i else s.i
  pc := if .pc ∈ parts then t.pc else s.pc
  sp := if .sp ∈ parts then t.sp else s.sp
  stack := if .stack ∈ parts then t.stack else s.stack
  dt := if .dt ∈ parts then t.dt else s.dt
  st := if .st ∈ parts then t.st else s.st
  keys := if .keys ∈ parts then t.keys else s.keys
  fb := if .fb ∈ parts then t.fb else s.fb
  mem := if .mem ∈ parts then t.mem else s.mem
  status := if .status ∈ parts then t.status else s.status
  draws := if .draws ∈ parts then t.draws else s.draws

theorem keepsExcept_withParts (parts : List Part) (s t : State) : KeepsExcept parts s (withParts parts s t) := by
  intro p hp
  cases p
  case v => exact readReg_congr (if_neg hp)
  case mem => exact fun a => congrArg (byteAt · a) (if_neg hp)
  all_goals exact if_neg hp

/-! ### The fault of an instruction's own check -/

/-- The fault an instruction raises under its own check (R231); the last arm is that of the four transfers. -/
def ownFault (s : State) : Instr → Fault
  | .ret => .stackUnderflow
  | .call _ => .stackOverflow Config.stackDepth
  | .skp x | .sknp x => .keyIndexFault (readReg s x)
  | _ => .addressFault (max s.i.toNat 4096)

theorem exec_call_full {s : State} (a : Addr12) (h : s.sp.val = Config.stackDepth) :
    exec (.call a) s = .next (takeFault (.stackOverflow Config.stackDepth) s) := by
  obtain ⟨-, hcall⟩ | ⟨hsp, -⟩ := execCall_cases a s
  · exact hcall
  · omega

theorem exec_fault {i : Instr} {s : State} (h : FaultsWhen s i) : exec i s = .next (takeFault (ownFault s i) s) := by
  cases i
  case ret => exact exec_ret_empty h
  case call a => exact exec_call_full a h
  case skp => exact execSkp_fault h
  case sknp => exact execSknp_fault h
  case drw x y n => exact execDrw_fault x y h.1 h.2
  case ldB x => exact execLdB_fault x h
  case ldMemVx => exact execLdMemVx_fault h
  case ldVxMem => exact execLdVxMem_fault h
  all_goals exact h.elim

theorem keepsExcept_takeFault (f : Fault) (s : State) : KeepsExcept [.status] s (takeFault f s) :=
  keepsExcept_withParts [.status] s (takeFault f s)

theorem status_takeFault_ne {s : State} (hrun : s.status.halted = false) (f : Fault) :
    (takeFault f s).status ≠ s.status := by
  intro h
  simp [← h] at hrun

/-! ### The state an instruction that completes may write -/

/-- `t` is `s` but for the pieces of state and the registers that the spec's tables name for the instruction. -/
structure Completes (i : Instr) (s t : State) : Prop where
  parts : withParts (partsWritten i) s t = t
  regs : RegsExcept (regsWritten i) s t

theorem Completes.keeps {i : Instr} {s t : State} (h : Completes i s t) : KeepsExcept (partsWritten i) s t :=
  h.parts ▸ keepsExcept_withParts (partsWritten i) s t

theorem status_not_written (i : Instr) : Part.status ∉ partsWritten i := by
  cases i <;> simp [partsWritten]

theorem Completes.status {i : Instr} {s t : State} (h : Completes i s t) : t.status = s.status :=
  h.keeps .status (status_not_written i)

/-- Not only every byte reads the same: the memory is the same cells. -/
theorem Completes.mem {i : Instr} {s t : State} (h : Completes i s t) (hmem : .mem ∉ partsWritten i) : t.mem = s.mem :=
  (congrArg State.mem h.parts).symm.trans (if_neg hmem)

theorem regsExcept_writeFlag_writeReg (s : State) (x : RegIdx) (b f : Byte) :
    RegsExcept [x, 15] s (writeFlag (writeReg s x b) f) := by
  intro r hr
  obtain ⟨hx, h15⟩ : r ≠ x ∧ r ≠ 15 := by simpa using hr
  rw [readReg_writeFlag, if_neg h15, readReg_writeReg_other s b hx]

theorem regsExcept_writeReg_writeFlag (s : State) (x : RegIdx) (b f : Byte) :
    RegsExcept [x, 15] s (writeReg (writeFlag s f) x b) := by
  intro r hr
  obtain ⟨hx, h15⟩ : r ≠ x ∧ r ≠ 15 := by simpa using hr
  rw [readReg_writeReg_other _ b hx, readReg_writeFlag, if_neg h15]

theorem regsExcept_loadRegs (s : State) (x : RegIdx) : RegsExcept (regsUpTo x) s (loadRegs s x) := by
  intro r hr
  rw [readReg_loadRegs, if_neg (mt (mem_regsUpTo x r).mpr hr)]

theorem keyPressed_cases (s : State) : (∀ k, keyPressed s k = false) ∨ ∃ k, keyPressed s k = true := by
  by_cases h : ∃ k, keyPressed s k = true
  · exact .inr h
  · exact .inl (by simpa using h)

theorem execLdVxK_completes (x : RegIdx) (s : State) : ∃ t, exec (.ldVxK x) s = .next t ∧ Completes (.ldVxK x) s t := by
  obtain ⟨-, h⟩ | ⟨k, made, -, h⟩ := execLdVxK_cases x s
  · exact ⟨_, h, rfl, fun _ _ => rfl⟩
  · refine ⟨_, h, by cases made <;> rfl, fun r hr => ?_⟩
    rw [readReg_advance, readReg_setKey, readReg_writeReg_other _ _ (List.ne_of_not_mem_cons hr), readReg_countDraw]

/-! ### What a passed check gives -/

theorem ret_entry {s : State} (h : ¬ FaultsWhen s .ret) : ∃ j : Fin Config.stackDepth, s.sp.val = j.val + 1 := by
  have hpos : 0 < s.sp.val := Nat.pos_of_ne_zero h
  exact ⟨⟨s.sp.val - 1, by omega⟩, (Nat.sub_add_cancel hpos).symm⟩

theorem call_entry {a : Addr12} {s : State} (h : ¬ FaultsWhen s (.call a)) :
    ∃ j : Fin Config.stackDepth, s.sp.val = j.val := by
  simp only [FaultsWhen] at h
  have := s.sp.isLt
  exact ⟨⟨s.sp.val, by omega⟩, rfl⟩

theorem key_of_reg {x : RegIdx} {s : State} (h : ¬ 15 < (readReg s x).toNat) :
    ∃ k : KeyIdx, (readReg s x).toNat = k.val :=
  ⟨⟨(readReg s x).toNat, by omega⟩, rfl⟩

theorem drw_range {x y : RegIdx} {n : Height} {s : State} (h : ¬ FaultsWhen s (.drw x y n)) :
    n.val = 0 ∨ s.i.toNat + n.val ≤ 4096 := by
  simp only [FaultsWhen] at h
  omega

theorem exec_call_push {s : State} {j : Fin Config.stackDepth} (a : Addr12) (h : s.sp.val = j.val) :
    exec (.call a) s = .next (setPc { s with stack := s.stack.set j.val (s.pc + 2) j.isLt, sp := j.succ } (zextAddr a)) := by
  obtain ⟨hfull, -⟩ | ⟨_, hcall⟩ := execCall_cases a s
  · have := j.isLt; omega
  · simp only [h] at hcall
    exact hcall

theorem exec_skp {x : RegIdx} {k : KeyIdx} {s : State} (h : (readReg s x).toNat = k.val) :
    exec (.skp x) s = .next (skipIf (keyPressed s k) s) := execSkp_ok h

theorem exec_sknp {x : RegIdx} {k : KeyIdx} {s : State} (h : (readReg s x).toNat = k.val) :
    exec (.sknp x) s = .next (skipIf (!keyPressed s k) s) := execSknp_ok h

/-! ### Completion -/

theorem next_inj {s t : State} {o : Host.Outcome State Fault Refusal} (hs : o = .next s) (ht : o = .next t) : s = t :=
  Host.Outcome.next.inj (hs.symm.trans ht)

theorem exec_completes {i : Instr} {s : State} (h : ¬ FaultsWhen s i) : ∃ t, exec i s = .next t ∧ Completes i s t := by
  cases i
  case ret =>
    obtain ⟨j, hj⟩ := ret_entry h
    exact ⟨_, exec_ret_pop hj, rfl, fun _ _ => rfl⟩
  case call a =>
    obtain ⟨j, hj⟩ := call_entry h
    exact ⟨_, exec_call_push a hj, rfl, fun _ _ => rfl⟩
  case skp =>
    obtain ⟨k, hk⟩ := key_of_reg h
    exact ⟨_, exec_skp hk, rfl, fun _ _ => rfl⟩
  case sknp =>
    obtain ⟨k, hk⟩ := key_of_reg h
    exact ⟨_, exec_sknp hk, rfl, fun _ _ => rfl⟩
  case drw x y n =>
    refine ⟨_, execDrw_ok x y (drw_range h), rfl, fun r hr => ?_⟩
    rw [readReg_advance, readReg_writeFlag, if_neg (List.ne_of_not_mem_cons hr)]
    rfl
  case ldB x => exact ⟨_, execLdB_ok x (Nat.le_of_not_lt h), rfl, fun _ _ => rfl⟩
  case ldMemVx => exact ⟨_, execLdMemVx_ok (Nat.le_of_not_lt h), rfl, fun _ _ => rfl⟩
  case ldVxMem x =>
    obtain ⟨v', hv⟩ := loadRegs_rest s x
    exact ⟨_, execLdVxMem_ok (Nat.le_of_not_lt h), by rw [hv]; rfl, regsExcept_loadRegs s x⟩
  case ldVxK x => exact execLdVxK_completes x s
  case ldImm x _ | addImm x _ | ldReg x _ | orReg x _ | andReg x _ | xorReg x _ | rnd x _ | ldVxDt x =>
    exact ⟨_, rfl, rfl, regsExcept_advance_writeReg _ x _⟩
  case addReg x y => exact ⟨_, rfl, rfl, regsExcept_writeFlag_writeReg s x _ _⟩
  case subReg x _ | subnReg x _ | shr x | shl x => exact ⟨_, rfl, rfl, regsExcept_writeReg_writeFlag s x _ _⟩
  all_goals exact ⟨_, rfl, rfl, fun _ _ => rfl⟩

theorem completes_of_exec {i : Instr} {s t : State} (hexec : exec i s = .next t) (hcheck : ¬ FaultsWhen s i) :
    Completes i s t := by
  obtain ⟨u, hu, hdone⟩ := exec_completes hcheck
  exact next_inj hu hexec ▸ hdone

/-- All an instruction can do. -/
theorem exec_cases (i : Instr) (s : State) :
    (FaultsWhen s i ∧ exec i s = .next (takeFault (ownFault s i) s)) ∨
    (¬ FaultsWhen s i ∧ ∃ t, exec i s = .next t ∧ Completes i s t) := by
  by_cases h : FaultsWhen s i
  · exact .inl ⟨h, exec_fault h⟩
  · exact .inr ⟨h, exec_completes h⟩

/-- Settles O53: an instruction that completes writes what its tables name; one that faults and leaves STATUS as it was
has recorded the fault that stood there already, and has changed nothing. -/
theorem onlyNamedStateIsWritten : Obligations.OnlyNamedStateIsWritten := by
  intro i s t hexec hstatus
  obtain ⟨-, hfault⟩ | ⟨-, u, hu, hdone⟩ := exec_cases i s
  · obtain rfl := next_inj hfault hexec
    refine ⟨fun p _ => ?_, fun _ _ => rfl⟩
    by_cases hp : p = .status
    · exact hp ▸ hstatus
    · exact keepsExcept_takeFault _ s p (by simpa using hp)
  · obtain rfl := next_inj hu hexec
    exact ⟨hdone.keeps, hdone.regs⟩

/-- Settles O12: the fault of an instruction's own check halts a running core; an instruction that completes leaves
STATUS. -/
theorem faultsExactlyUnderOwnCheck : Obligations.FaultsExactlyUnderOwnCheck := by
  intro i s hrun
  obtain ⟨hcheck, hfault⟩ | ⟨hcheck, t, ht, hdone⟩ := exec_cases i s
  · exact ⟨_, hfault, iff_of_true (status_takeFault_ne hrun _) hcheck⟩
  · exact ⟨t, ht, iff_of_false (not_not.mpr hdone.status) hcheck⟩

end Sys2Proof

/-! ## Proofs: what a step can do

A step does nothing on a halted core; on a running one it takes a fault of the fetch or of the decode, or it is exec of the
word at PC (40_cycle_and_control_transfer.md R120 to R123). -/

namespace Sys2Proof

open Machine Safety

/-! ### The four ways of a step -/

theorem step_halted {s : State} (h : s.status.halted = true) : step s = .next s := if_pos h

theorem step_word {s : State} {w : Word} {i : Instr} (hrun : s.status.halted = false) (hpc : s.pc.toNat ≤ 0xFFE)
    (hword : wordAt s.mem s.pc.toNat = w) (hdecode : decode w = .ok i) : step s = exec i s :=
  step_exec hrun hpc ((congrArg decode hword).trans hdecode)

theorem step_invalid {s : State} {e : DecodeError} (hrun : s.status.halted = false) (hpc : s.pc.toNat ≤ 0xFFE)
    (hdecode : decode (wordAt s.mem s.pc.toNat) = .error e) :
    step s = .next (takeFault (.invalidOpcode (wordAt s.mem s.pc.toNat)) s) := by
  rw [wordAt] at hdecode ⊢
  simp [step, isHalted, hrun, nextInstr, fetch_ok s hpc, decodeOrFault, hdecode]

/-- All a step can do, by the word at PC. -/
theorem step_ways (s : State) :
    s.status.halted = true ∨
    (s.status.halted = false ∧ 0xFFF ≤ s.pc.toNat) ∨
    (s.status.halted = false ∧ s.pc.toNat ≤ 0xFFE ∧ ∃ e, decode (wordAt s.mem s.pc.toNat) = .error e) ∨
    (s.status.halted = false ∧ s.pc.toNat ≤ 0xFFE ∧ ∃ i, decode (wordAt s.mem s.pc.toNat) = .ok i) := by
  obtain ⟨hhalt, -⟩ | ⟨hrun, hpc, -⟩ | ⟨hrun, hpc, -⟩ := step_cases s
  · exact .inl hhalt
  · exact .inr (.inl ⟨hrun, hpc⟩)
  · cases hd : decode (wordAt s.mem s.pc.toNat) with
    | error e => exact .inr (.inr (.inl ⟨hrun, hpc, e, rfl⟩))
    | ok i => exact .inr (.inr (.inr ⟨hrun, hpc, i, rfl⟩))

/-! ### INFO -/

theorem faultInfo_invalidOpcode (w : Word) : (faultInfo (.invalidOpcode w)).toNat = w.toNat :=
  BitVec.toNat_setWidth_of_le (by decide)

theorem faultInfo_keyIndexFault (b : Byte) : (faultInfo (.keyIndexFault b)).toNat = b.toNat :=
  BitVec.toNat_setWidth_of_le (by decide)

theorem faultInfo_addressFault (w : Word) : (faultInfo (.addressFault (max w.toNat 4096))).toNat = max w.toNat 4096 := by
  have := w.isLt
  simp only [faultInfo, BitVec.toNat_ofNat]; omega

theorem faultInfo_addressFault_le (w : Word) : (faultInfo (.addressFault (max w.toNat 4096))).toNat ≤ 0xFFFF := by
  have := w.isLt
  rw [faultInfo_addressFault]; omega

theorem faultInfo_ownFault_le (s : State) (i : Instr) : (faultInfo (ownFault s i)).toNat ≤ 0xFFFF := by
  cases i
  case ret => exact Nat.zero_le _
  case call => exact (by decide : (faultInfo (.stackOverflow Config.stackDepth)).toNat ≤ 0xFFFF)
  case skp x | sknp x =>
    have := (readReg s x).isLt
    exact (faultInfo_keyIndexFault (readReg s x)).le.trans (by omega)
  all_goals exact faultInfo_addressFault_le s.i

/-! ### What a step leaves -/

/-- The core as it was, a fault whose INFO is at most 65535 (R231), or what a completed instruction leaves. -/
theorem step_results (s : State) :
    (s.status.halted = true ∧ step s = .next s) ∨
    (s.status.halted = false ∧ ∃ f, (faultInfo f).toNat ≤ 0xFFFF ∧ step s = .next (takeFault f s)) ∨
    (s.status.halted = false ∧ s.pc.toNat ≤ 0xFFE ∧
      ∃ i t, ¬ FaultsWhen s i ∧ exec i s = .next t ∧ Completes i s t ∧ step s = .next t) := by
  obtain hhalt | ⟨hrun, hpc⟩ | ⟨hrun, hpc, e, he⟩ | ⟨hrun, hpc, i, hi⟩ := step_ways s
  · exact .inl ⟨hhalt, step_halted hhalt⟩
  · exact .inr (.inl ⟨hrun, _, faultInfo_addressFault_le s.pc, step_fetchFault hrun hpc⟩)
  · refine .inr (.inl ⟨hrun, _, ?_, step_invalid hrun hpc he⟩)
    have := (wordAt s.mem s.pc.toNat).isLt
    rw [faultInfo_invalidOpcode]; omega
  · have hstep := step_word hrun hpc rfl hi
    obtain ⟨-, hfault⟩ | ⟨hcheck, t, ht, hdone⟩ := exec_cases i s
    · exact .inr (.inl ⟨hrun, _, faultInfo_ownFault_le s i, hstep.trans hfault⟩)
    · exact .inr (.inr ⟨hrun, hpc, i, t, hcheck, ht, hdone, hstep.trans ht⟩)

theorem step_answers (s : State) : ∃ t, step s = .next t := by
  obtain ⟨-, h⟩ | ⟨-, _, -, h⟩ | ⟨-, -, _, _, -, -, -, h⟩ := step_results s
  all_goals exact ⟨_, h⟩

theorem exec_answers (i : Instr) (s : State) : ∃ t, exec i s = .next t := by
  obtain ⟨-, h⟩ | ⟨-, _, h, -⟩ := exec_cases i s
  all_goals exact ⟨_, h⟩

theorem eventOutcome_answers (e : Event) (s : State) : ∃ t, eventOutcome e s = .next t := by
  cases e
  case step => exact step_answers s
  all_goals exact ⟨_, rfl⟩

theorem systemMove_of_eventOutcome {e : Event} {y : System} {s : State} (hmay : mayHappen e y = true)
    (h : eventOutcome e y.core = .next s) : systemMove e y = some ⟨s, steppedAfter e y.stepped⟩ := by
  simp only [systemMove, hmay, if_true, h]

/-- Settles O11: faults are next states, so no event is stuck. -/
theorem everyStepAnswers : Obligations.EveryStepAnswers := by
  refine ⟨step_answers, exec_answers, fun e y hmay => ?_⟩
  obtain ⟨t, ht⟩ := eventOutcome_answers e y.core
  exact ⟨_, systemMove_of_eventOutcome hmay ht⟩

/-- A step that changes STATUS is a fault of a running core. -/
theorem step_changes_status {s t : State} (hstep : step s = .next t) (hne : t.status ≠ s.status) :
    s.status.halted = false ∧ ∃ f, t = takeFault f s := by
  obtain ⟨-, h⟩ | ⟨hrun, f, -, h⟩ | ⟨-, -, i, u, -, -, hdone, h⟩ := step_results s
  · exact absurd (next_inj hstep h ▸ rfl) hne
  · exact ⟨hrun, f, next_inj hstep h⟩
  · exact absurd (next_inj hstep h ▸ hdone.status) hne

/-- Settles O13: such a step takes a fault, and a fault writes STATUS alone. -/
theorem faultsArePrecise : Obligations.FaultsArePrecise := by
  intro s t hstep hne
  obtain ⟨hrun, f, rfl⟩ := step_changes_status hstep hne
  exact ⟨hrun, rfl, keepsExcept_takeFault f s⟩

/-! ### What STATUS records -/

/-- Settles O7: two bytes decode as the word they make. -/
theorem stepRunsDecodedInstruction : Obligations.StepRunsDecodedInstruction := by
  rintro s hi lo i hrun hpc rfl rfl hbytes
  refine ⟨instr_wf i, step_exec hrun hpc ?_⟩
  simp only [decodeBytes] at hbytes
  split at hbytes
  · cases hbytes; assumption
  · cases hbytes

/-- Settles O8: the fault's address is the larger of PC and 4096, which is PC but at 0xFFF. -/
theorem fetchFaultBeyondMemory : Obligations.FetchFaultBeyondMemory := by
  intro s hrun hpc
  refine ⟨_, step_fetchFault hrun hpc, rfl, rfl, ?_, keepsExcept_takeFault _ s⟩
  rw [takeFault_status, faultInfo_addressFault]
  split_ifs <;> omega

/-- Settles O9: the fault of the decode, whose INFO is the word itself. -/
theorem invalidOpcodeHalts : Obligations.InvalidOpcodeHalts := by
  intro s e hrun hpc he
  exact ⟨_, step_invalid hrun hpc he, rfl, rfl, faultInfo_invalidOpcode _, keepsExcept_takeFault _ s⟩

/-- Settles O14: the faults that the checks of RET and CALL raise. -/
theorem stackFaultsRecorded : Obligations.StackFaultsRecorded :=
  ⟨fun s hsp => ⟨_, exec_ret_empty hsp, rfl, keepsExcept_takeFault _ s⟩,
    fun a s hsp => ⟨_, exec_call_full a hsp, rfl, keepsExcept_takeFault _ s⟩⟩

/-- Settles O15: the fault of the key check, whose INFO is the byte in Vx. -/
theorem keyIndexFaultRecorded : Obligations.KeyIndexFaultRecorded := fun x s hx =>
  ⟨⟨_, exec_fault (i := .skp x) hx, rfl, rfl, faultInfo_keyIndexFault _, keepsExcept_takeFault _ s⟩,
    ⟨_, exec_fault (i := .sknp x) hx, rfl, rfl, faultInfo_keyIndexFault _, keepsExcept_takeFault _ s⟩⟩

theorem exec_addressFault {i : Instr} {s : State} (h : FaultsWhen s i)
    (hown : ownFault s i = .addressFault (max s.i.toNat 4096)) :
    ∃ t, exec i s = .next t ∧ t.status.halted = true ∧ t.status.cause = 3
      ∧ t.status.info.toNat = max s.i.toNat 4096 ∧ KeepsExcept [.status] s t := by
  refine ⟨_, exec_fault h, ?_⟩
  rw [hown]
  exact ⟨rfl, rfl, faultInfo_addressFault s.i, keepsExcept_takeFault _ s⟩

/-- Settles O16: the statement's condition is the check of each of the four transfers. -/
theorem rangeFaultRecorded : Obligations.RangeFaultRecorded := by
  intro i s h
  cases i
  case drw | ldB | ldMemVx | ldVxMem => exact exec_addressFault h rfl
  all_goals exact h.elim

end Sys2Proof

/-! ## Proofs: where each instruction leads

CALL and its return, JP V0, the skips on keys and the key wait; with the transfers above they give the table of
10_state.md R27. -/

namespace Sys2Proof

open Machine Safety

/-! ### CALL and the RET behind it -/

theorem stack_set_other (stk : Vector Word Config.stackDepth) (w : Word) {j k : Fin Config.stackDepth} (h : k.val < j.val) :
    (stk.set j.val w j.isLt)[k] = stk[k] :=
  Vector.getElem_set_ne _ _ (by omega)

theorem stack_set_same (stk : Vector Word Config.stackDepth) (w : Word) (j : Fin Config.stackDepth) :
    (stk.set j.val w j.isLt)[j] = w :=
  Vector.getElem_set_self _

/-- Settles O20: the new entry is above all live ones. -/
theorem callPushesReturn : Obligations.CallPushesReturn := by
  intro a s j hsp
  refine ⟨decode_call_word a, _, exec_call_push a hsp, zextAddr_toNat a, ?_, stack_set_same _ _ j, ?_,
    keepsExcept_setPc_stack _ _ _ _⟩
  · exact congrArg (· + 1) hsp.symm
  · exact fun k hk => stack_set_other _ _ (hsp ▸ hk)

/-- Settles O21: RET pops the entry that CALL pushed, and leaves it dead on the stack. -/
theorem returnUndoesCall : Obligations.ReturnUndoesCall := by
  intro a s hsp
  have hcall := exec_call_push (j := ⟨s.sp.val, hsp⟩) a rfl
  refine ⟨_, _, hcall, exec_ret_pop (j := ⟨s.sp.val, hsp⟩) rfl, stack_set_same _ _ _, rfl,
    fun k hk => stack_set_other _ _ hk, fun p hp => ?frame⟩
  cases p
  case pc | stack => simp at hp
  case v | mem => exact fun _ => rfl
  all_goals rfl

/-! ### JP V0 -/

@[simp] theorem zextByte_toNat (b : Byte) : (zextByte b).toNat = b.toNat := BitVec.toNat_setWidth_of_le (by decide)

theorem exec_jpV0 (a : Addr12) (s : State) :
    exec (.jpV0 a) s = .next (setPc s (zextAddr a + zextByte (readReg s 0))) := rfl

/-- The sum of R127 needs 13 bits, so it is exact in the 16 of PC. -/
theorem jpV0_target (a : Addr12) (b : Byte) :
    (zextAddr a + zextByte b).toNat = a.toNat + b.toNat ∧ (zextAddr a + zextByte b).toNat ≤ 0x10FE := by
  have := a.isLt
  have := b.isLt
  rw [BitVec.toNat_add, zextAddr_toNat, zextByte_toNat]
  omega

/-- Settles O22: by the exact sum `jpV0_target`. -/
theorem jumpPlusV0 : Obligations.JumpPlusV0 := fun a s =>
  ⟨decode_jpV0_word a, _, exec_jpV0 a s, (jpV0_target a _).1, (jpV0_target a _).2, keepsExcept_setPc s _⟩

/-! ### The skips on keys -/

theorem skipIf_not_pc (c : Bool) (s : State) : (skipIf (!c) s).pc = if c = true then s.pc + 2 else s.pc + 4 := by
  cases c <;> rfl

/-- Settles O43: both are `skipIf` of the key, or of its negation, which writes PC alone. -/
theorem skipsOnKeys : Obligations.SkipsOnKeys := fun x _ s hk =>
  ⟨⟨decode_skp_word x, decode_sknp_word x⟩, ⟨_, exec_skp hk, keepsExcept_skipIf _ s, skipIf_pc _ s⟩,
    ⟨_, exec_sknp hk, keepsExcept_skipIf _ s, skipIf_not_pc _ s⟩⟩

/-! ### The table of R27 -/

theorem exec_ldVxK_pc {x : RegIdx} {s t : State} (hexec : exec (.ldVxK x) s = .next t) :
    ((∀ k, keyPressed s k = false) → t.pc = s.pc) ∧ ((∃ k, keyPressed s k = true) → t.pc = s.pc + 2) := by
  obtain ⟨hnone, h⟩ | ⟨k, made, hk, h⟩ := execLdVxK_cases x s
  · obtain rfl := next_inj h hexec
    exact ⟨fun _ => rfl, fun ⟨k, hk⟩ => by simp [hnone k] at hk⟩
  · obtain rfl := next_inj h hexec
    exact ⟨fun hnone => by simp [hnone k] at hk, fun _ => by simp⟩

theorem loadRegs_pc (s : State) (x : RegIdx) : (loadRegs s x).pc = s.pc := by
  obtain ⟨v', h⟩ := loadRegs_rest s x
  rw [h]

theorem exec_status_ne_pc {i : Instr} {s t : State} (hexec : exec i s = .next t) (hne : t.status ≠ s.status) :
    t.pc = s.pc := by
  obtain ⟨-, hfault⟩ | ⟨-, u, hu, hdone⟩ := exec_cases i s
  · obtain rfl := next_inj hfault hexec
    rfl
  · obtain rfl := next_inj hu hexec
    exact absurd hdone.status hne

/-- Settles O24: in the first clause a running core cannot have faulted, for it would have halted. -/
theorem pcAfterEachInstruction : Obligations.PcAfterEachInstruction := by
  refine ⟨fun i s t hrun hexec hstatus => ?_, fun _ _ _ => exec_status_ne_pc, fun s t hstep hne => ?_⟩
  case refine_2 =>
    obtain ⟨-, f, rfl⟩ := step_changes_status hstep hne
    rfl
  have hcheck : ¬ FaultsWhen s i := fun h => status_takeFault_ne hrun _ (next_inj (exec_fault h) hexec ▸ hstatus)
  cases i
  case ret =>
    intro j hj
    obtain rfl := next_inj (exec_ret_pop hj) hexec
    rfl
  case jp a => cases hexec; exact zextAddr_toNat a
  case call a =>
    obtain ⟨j, hj⟩ := call_entry hcheck
    obtain rfl := next_inj (exec_call_push a hj) hexec
    refine ⟨zextAddr_toNat a, fun k hk => ?_⟩
    obtain rfl : k = j := Fin.ext (hk.symm.trans hj)
    exact stack_set_same _ _ _
  case jpV0 a => cases hexec; exact jpV0_target a _
  case seImm | seReg => cases hexec; simp only [skipIf_pc, beq_iff_eq]
  case sneImm | sneReg => cases hexec; simp only [skipIf_pc, bne_iff_ne, ite_not]
  case skp =>
    intro k hk
    obtain rfl := next_inj (exec_skp hk.symm) hexec
    exact skipIf_pc _ s
  case sknp =>
    intro k hk
    obtain rfl := next_inj (exec_sknp hk.symm) hexec
    exact skipIf_not_pc _ s
  case ldVxK => exact exec_ldVxK_pc hexec
  case drw x y n => obtain rfl := next_inj (execDrw_ok x y (drw_range hcheck)) hexec; rfl
  case ldB x => obtain rfl := next_inj (execLdB_ok x (Nat.le_of_not_lt hcheck)) hexec; rfl
  case ldMemVx => obtain rfl := next_inj (execLdMemVx_ok (Nat.le_of_not_lt hcheck)) hexec; rfl
  case ldVxMem x =>
    obtain rfl := next_inj (execLdVxMem_ok (Nat.le_of_not_lt hcheck)) hexec
    exact congrArg (· + 2) (loadRegs_pc s x)
  all_goals cases hexec; rfl

end Sys2Proof

/-! ## Proofs: the invariant of the core

A fault writes STATUS alone. An instruction that completes keeps the memory in canonical form, as it stores inside memory
only; it keeps PC within the bound of 10_state.md R28; and the one address it can push is that behind a CALL that was
fetched, so at most 0x1000 (40_cycle_and_control_transfer.md R126). -/

namespace Sys2Proof

open Machine Safety

/-! ### A fault -/

theorem faultCode_range (f : Fault) : 1 ≤ (faultCode f).toNat ∧ (faultCode f).toNat ≤ 6 := by
  cases f <;> simp [faultCode]

theorem takeFault_coreInv {f : Fault} {s : State} (hinfo : (faultInfo f).toNat ≤ 0xFFFF) (h : CoreInv s) :
    CoreInv (takeFault f s) := by
  obtain ⟨hmem, hpc, hstack, -, -⟩ := h
  exact ⟨hmem, hpc, hstack, nofun, fun _ => ⟨(faultCode_range f).1, (faultCode_range f).2, hinfo⟩⟩

/-! ### An instruction that completes -/

theorem fetched_pc_add_le {w : Word} (h : w.toNat ≤ 0xFFE) : (w + 2).toNat ≤ 0x1000 ∧ (w + 4).toNat ≤ 0x1002 := by
  constructor <;> bv_omega

theorem skip_target_le {w : Word} (h : w.toNat ≤ 0xFFE) (c : Prop) [Decidable c] :
    (if c then w + 4 else w + 2).toNat ≤ 0x10FE ∧ (if c then w + 2 else w + 4).toNat ≤ 0x10FE := by
  obtain ⟨h2, h4⟩ := fetched_pc_add_le h
  split_ifs <;> omega

section Completed

variable {i : Instr} {s t : State} (hcheck : ¬ FaultsWhen s i) (hexec : exec i s = .next t) (hdone : Completes i s t)
include hcheck hexec hdone

theorem exec_mem_wf (h : Memory.wf s.mem = true) : Memory.wf t.mem = true := by
  cases i
  case ldB x =>
    obtain rfl := next_inj (execLdB_ok x (Nat.le_of_not_lt hcheck)) hexec
    exact storeBytes_wf _ h (Nat.le_of_not_lt hcheck)
  case ldMemVx x =>
    obtain rfl := next_inj (execLdMemVx_ok (Nat.le_of_not_lt hcheck)) hexec
    exact storeBytes_wf _ h ((regValues_length s x).symm ▸ Nat.le_of_not_lt hcheck)
  all_goals exact hdone.mem (by simp [partsWritten]) ▸ h

theorem exec_pc_le (hrun : s.status.halted = false) (hpc : s.pc.toNat ≤ 0xFFE)
    (hstack : ∀ j : Fin Config.stackDepth, j.val < s.sp.val → (s.stack[j]).toNat ≤ 0x1000) : t.pc.toNat ≤ 0x10FE := by
  have htable := pcAfterEachInstruction.1 i s t hrun hexec hdone.status
  cases i
  case ret =>
    obtain ⟨j, hj⟩ := ret_entry hcheck
    rw [htable j hj]
    exact (hstack j (by omega)).trans (by decide)
  case jp a | call a =>
    have := a.isLt
    simp only at htable
    omega
  case jpV0 => exact htable.2
  case seImm | seReg => rw [htable]; exact (skip_target_le hpc _).1
  case sneImm | sneReg => rw [htable]; exact (skip_target_le hpc _).2
  case skp =>
    obtain ⟨k, hk⟩ := key_of_reg hcheck
    rw [htable k hk.symm]
    exact (skip_target_le hpc _).1
  case sknp =>
    obtain ⟨k, hk⟩ := key_of_reg hcheck
    rw [htable k hk.symm]
    exact (skip_target_le hpc _).2
  case ldVxK =>
    obtain hnone | hsome := keyPressed_cases s
    · rw [htable.1 hnone]; omega
    · rw [htable.2 hsome]; exact (fetched_pc_add_le hpc).1.trans (by decide)
  all_goals rw [htable]; exact (fetched_pc_add_le hpc).1.trans (by decide)

theorem exec_liveEntries_le (hpc : s.pc.toNat ≤ 0xFFE)
    (hstack : ∀ j : Fin Config.stackDepth, j.val < s.sp.val → (s.stack[j]).toNat ≤ 0x1000) :
    ∀ j : Fin Config.stackDepth, j.val < t.sp.val → (t.stack[j]).toNat ≤ 0x1000 := by
  cases i
  case ret =>
    obtain ⟨k, hk⟩ := ret_entry hcheck
    obtain rfl := next_inj (exec_ret_pop hk) hexec
    exact fun j hj => hstack j (by simp only [setPc_sp, Fin.val_castSucc] at hj; omega)
  case call a =>
    obtain ⟨k, hk⟩ := call_entry hcheck
    obtain rfl := next_inj (exec_call_push a hk) hexec
    intro j hj
    simp only [setPc_sp, Fin.val_succ] at hj
    rw [setPc_stack]
    rcases Nat.lt_or_ge j.val k.val with hlt | hge
    · rw [stack_set_other _ _ hlt]
      exact hstack j (by omega)
    · obtain rfl : j = k := Fin.ext (by omega)
      rw [stack_set_same]
      exact (fetched_pc_add_le hpc).1
  all_goals
    have hsp : t.sp = s.sp := hdone.keeps .sp (by simp [partsWritten])
    have hstk : t.stack = s.stack := hdone.keeps .stack (by simp [partsWritten])
    rw [hsp, hstk]
    exact hstack

theorem exec_coreInv (hrun : s.status.halted = false) (hpc : s.pc.toNat ≤ 0xFFE) (h : CoreInv s) : CoreInv t := by
  obtain ⟨hmem, -, hstack, hclear, hrecorded⟩ := h
  refine ⟨exec_mem_wf hcheck hexec hdone hmem, exec_pc_le hcheck hexec hdone hrun hpc hstack,
    exec_liveEntries_le hcheck hexec hdone hpc hstack, ?_⟩
  rw [hdone.status]
  exact ⟨hclear, hrecorded⟩

end Completed

/-- Settles O57: by what a step leaves, a fault or a completed instruction. -/
theorem stepKeepsCoreInv : Obligations.StepKeepsCoreInv := by
  intro s t h hstep
  obtain ⟨-, hs⟩ | ⟨-, f, hinfo, hs⟩ | ⟨hrun, hpc, i, u, hcheck, hexec, hdone, hs⟩ := step_results s
  · exact next_inj hs hstep ▸ h
  · exact next_inj hs hstep ▸ takeFault_coreInv hinfo h
  · exact next_inj hs hstep ▸ exec_coreInv hcheck hexec hdone hrun hpc h

/-! ### The other events -/

theorem reset_coreInv : CoreInv State.reset := by decide

theorem resetEvent_coreInv (s : State) : CoreInv (resetEvent s) := reset_coreInv

/-- Settles O58: the reset event leaves the draws, which the invariant does not mention. -/
theorem resetMeetsCoreInv : Obligations.ResetMeetsCoreInv := ⟨reset_coreInv, resetEvent_coreInv⟩

theorem imageFits_iff (bytes : List Byte) : imageFits bytes = true ↔ 0x200 + bytes.length ≤ 4096 := by
  simp [imageFits]

theorem loadEvent_fits {bytes : List Byte} (h : 0x200 + bytes.length ≤ 4096) (s : State) :
    loadEvent bytes s = { s with mem := storeBytes s.mem 0x200 bytes } :=
  if_pos ((imageFits_iff bytes).mpr h)

theorem loadEvent_overflow {bytes : List Byte} (h : 4096 < 0x200 + bytes.length) (s : State) :
    loadEvent bytes s = takeFault .loadOverflow s :=
  if_neg (mt (imageFits_iff bytes).mp (by omega))

theorem loadEvent_coreInv (bytes : List Byte) {s : State} (h : CoreInv s) : CoreInv (loadEvent bytes s) := by
  rcases Nat.lt_or_ge 4096 (0x200 + bytes.length) with hover | hfits
  · rw [loadEvent_overflow hover]
    exact takeFault_coreInv (by decide) h
  · rw [loadEvent_fits hfits]
    obtain ⟨hmem, hrest⟩ := h
    exact ⟨storeBytes_wf bytes hmem hfits, hrest⟩

theorem eventOutcome_coreInv {e : Event} {s t : State} (h : CoreInv s) (he : eventOutcome e s = .next t) :
    CoreInv t := by
  cases e
  case reset => cases he; exact resetEvent_coreInv s
  case load bytes => cases he; exact loadEvent_coreInv bytes h
  case step => exact stepKeepsCoreInv s t h he
  case tick | keySet => cases he; exact h

/-- Settles O59: by induction on the events, as every event keeps the invariant. -/
theorem everyRunKeepsCoreInv : Obligations.EveryRunKeepsCoreInv := by
  refine run_invariant (P := fun y => CoreInv y.core) fun e y y' h hmove => ?_
  obtain ⟨-, houtcome, -⟩ := systemMove_cases hmove
  exact eventOutcome_coreInv h houtcome

end Sys2Proof

/-! ## Proofs: the events around the step, and runs

What tick, key_set, load and reset write; a halted core in a run; the host's rule on load; and the boot
(00_scope.md R12; 20_memory.md R76, R77; 70_reset_and_hazards.md R260 to R265). -/

namespace Sys2Proof

open Machine Safety

/-! ### tick and key_set -/

theorem countDown_toNat (t : Byte) : (countDown t).toNat = t.toNat - 1 := by
  unfold countDown
  split_ifs with h
  · rw [h]; rfl
  · bv_omega

theorem keepsExcept_tickEvent (s : State) : KeepsExcept [.dt, .st] s (tickEvent s) :=
  keepsExcept_withParts [.dt, .st] s (tickEvent s)

theorem keepsExcept_keySetEvent (k : KeyIdx) (b : Bool) (s : State) : KeepsExcept [.keys] s (keySetEvent k b s) :=
  keepsExcept_withParts [.keys] s (keySetEvent k b s)

/-- Settles O47: tick by `countDown_toNat`, key_set by `keyPressed_setKey`. -/
theorem tickAndKeySet : Obligations.TickAndKeySet :=
  ⟨fun s => ⟨countDown_toNat s.dt, countDown_toNat s.st, keepsExcept_tickEvent s⟩,
    fun s k b => ⟨fun j => keyPressed_setKey s k j b, keepsExcept_keySetEvent k b s⟩⟩

/-! ### load -/

theorem keepsExcept_setMem (s : State) (m : Memory) : KeepsExcept [.mem] s { s with mem := m } :=
  keepsExcept_withParts [.mem] s { s with mem := m }

theorem memExcept_storeBytes (s : State) (a : Nat) (us : List Byte) :
    MemExcept a us.length s { s with mem := storeBytes s.mem a us } :=
  fun b hb => byteAt_storeBytes_outside us s.mem a b hb

/-- The byte stored at offset `j` of a run. -/
theorem byteAt_storeBytes_at {us : List Byte} {j : Nat} (hj : j < us.length) (m : Memory) (a : Nat) :
    byteAt (storeBytes m a us) (a + j) = us.getD j 0 := by
  rw [byteAt_storeBytes, if_pos ⟨by omega, by omega⟩, Nat.add_sub_cancel_left]

/-- Settles O48: a store at 0x200, or a fault. -/
theorem loadCopiesImage : Obligations.LoadCopiesImage := by
  refine fun bytes s => ⟨fun hfits => ?_, fun hover => ?_⟩
  · rw [loadEvent_fits (by omega)]
    exact ⟨fun j hj => byteAt_storeBytes_at hj s.mem 0x200, memExcept_storeBytes s 0x200 bytes, keepsExcept_setMem s _⟩
  · rw [loadEvent_overflow (by omega)]
    exact ⟨rfl, keepsExcept_takeFault _ s⟩

/-! ### reset -/

theorem resetByte_glyph {d j : Nat} (hd : d < 16) (hj : j < 5) :
    resetByte (5 * d + j) = (Config.glyph.getD d []).getD j 0 := by
  have hdiv : (5 * d + j) / Config.glyphStride = d := by simp only [Config.glyphStride]; omega
  have hmod : (5 * d + j) % Config.glyphStride = j := by simp only [Config.glyphStride]; omega
  rw [resetByte, hdiv, hmod, if_pos (by simp only [Config.glyphStride, Config.glyphCount]; omega)]

/-- Settles O49: memory reads as the reset image, in which glyph d begins at 5 * d. -/
theorem resetLeaves : Obligations.ResetLeaves := by
  refine fun s => ⟨rfl, ?glyphs, ?above, ?regs, rfl, rfl, rfl, rfl, ?keys, pixelAt_blankGrid, rfl⟩
  case glyphs =>
    intro d j hd hj
    rw [byteAt_resetEvent, resetByte_glyph hd hj]
  case above =>
    intro a ha
    rw [byteAt_resetEvent, resetByte_above_glyphs ha]
  case regs => exact fun r => Vector.getElem_replicate r.isLt
  case keys => exact fun k => Vector.getElem_replicate k.isLt

/-! ### Runs -/

theorem runEvents_append (es es' : List Event) : ∀ y : System,
    runEvents (es ++ es') y = (runEvents es y).bind (runEvents es') := by
  induction es with
  | nil => intro y; rfl
  | cons e rest ih =>
    intro y
    simp only [List.cons_append, runEvents]
    split
    · exact ih _
    · rfl

/-- A property that every move of the events of a run keeps holds after the run. -/
theorem run_keeps {P : System → Prop} {es : List Event}
    (hmove : ∀ e ∈ es, ∀ y y', P y → systemMove e y = some y' → P y') :
    ∀ y y' : System, P y → runEvents es y = some y' → P y' := by
  induction es with
  | nil => intro y y' hp h; cases h; exact hp
  | cons e rest ih =>
    intro y y' hp h
    simp only [runEvents] at h
    split at h
    · rename_i z hz
      exact ih (fun e' he' => hmove e' (List.mem_cons_of_mem e he')) z y' (hmove e List.mem_cons_self y z hp hz) h
    · cases h

theorem stepped_of_move {e : Event} {y y' : System} (he : e ≠ .reset) (hy : y.stepped = true)
    (h : systemMove e y = some y') : y'.stepped = true := by
  obtain ⟨-, -, hstepped⟩ := systemMove_cases h
  rw [hstepped, hy]
  cases e
  case reset => exact absurd rfl he
  all_goals rfl

theorem systemMove_load_stepped {y : System} (h : y.stepped = true) (bytes : List Byte) :
    systemMove (.load bytes) y = none :=
  if_neg (by simp [mayHappen, h])

theorem stepped_of_run {es : List Event} {y y' : System} (hes : Event.reset ∉ es)
    (h : runEvents (.step :: es) y = some y') : y'.stepped = true := by
  simp only [runEvents] at h
  split at h
  · rename_i z hz
    obtain ⟨-, -, hstepped⟩ := systemMove_cases hz
    refine run_keeps (P := fun y => y.stepped = true) (fun e he _ _ => ?_) z y' hstepped h
    exact stepped_of_move (ne_of_mem_of_not_mem he hes)
  · cases h

theorem runEvents_reset_load (y : System) (bytes : List Byte) :
    runEvents [.reset, .load bytes] y = some ⟨loadEvent bytes (resetEvent y.core), false⟩ :=
  (runEvents_reset y _).trans (runEvents_cons (systemMove_load rfl bytes) [])

/-- Settles O52: a step leaves `stepped` true, and no event but reset puts it back. -/
theorem noLoadAfterStep : Obligations.NoLoadAfterStep := by
  refine ⟨fun es bytes y hes => ?_, fun bytes y => ⟨_, runEvents_reset_load y bytes⟩⟩
  rw [runEvents_append]
  cases h : runEvents (.step :: es) y with
  | none => rfl
  | some z => simp only [Option.bind_some, runEvents, systemMove_load_stepped (stepped_of_run hes h)]

/-! ### A halted core -/

theorem same_trans {p : Part} {s t u : State} (h : Same p s t) (h' : Same p t u) : Same p s u := by
  cases p
  case v | mem => exact fun a => (h' a).trans (h a)
  all_goals exact Eq.trans h' h

theorem keepsExcept_refl (parts : List Part) (s : State) : KeepsExcept parts s s := by
  intro p _
  cases p
  case v | mem => exact fun _ => rfl
  all_goals rfl

theorem keepsExcept_trans {parts : List Part} {s t u : State} (h : KeepsExcept parts s t) (h' : KeepsExcept parts t u) :
    KeepsExcept parts s u :=
  fun p hp => same_trans (h p hp) (h' p hp)

theorem keepsExcept_mono {parts parts' : List Part} {s t : State} (hsub : parts ⊆ parts') (h : KeepsExcept parts s t) :
    KeepsExcept parts' s t :=
  fun p hp => h p (fun hp' => hp (hsub hp'))

theorem keepsExcept_move_halted {e : Event} {y y' : System} (he : e ≠ .reset) (hhalt : y.core.status.halted = true)
    (hy : y.stepped = true) (h : systemMove e y = some y') : KeepsExcept [.dt, .st, .keys] y.core y'.core := by
  obtain ⟨-, houtcome, -⟩ := systemMove_cases h
  cases e
  case reset => exact absurd rfl he
  case load bytes => rw [systemMove_load_stepped hy] at h; cases h
  case step =>
    rw [next_inj houtcome (step_halted hhalt)]
    exact keepsExcept_refl _ _
  case tick =>
    rw [← next_inj rfl houtcome]
    exact keepsExcept_mono (by decide) (keepsExcept_tickEvent _)
  case keySet k b =>
    rw [← next_inj rfl houtcome]
    exact keepsExcept_mono (by decide) (keepsExcept_keySetEvent k b _)

/-- A step has been taken, and since `s` only DT, ST and K have changed. -/
def OnlyTimersAndKeysSince (s : State) (y : System) : Prop :=
  y.stepped = true ∧ KeepsExcept [.dt, .st, .keys] s y.core

theorem onlyTimersAndKeysSince_move {e : Event} {s : State} {y y' : System} (he : e ≠ .reset)
    (hhalt : s.status.halted = true) (h : OnlyTimersAndKeysSince s y) (hmove : systemMove e y = some y') :
    OnlyTimersAndKeysSince s y' := by
  obtain ⟨hstepped, hkeeps⟩ := h
  have hstatus : y.core.status = s.status := hkeeps .status (by decide)
  exact ⟨stepped_of_move he hstepped hmove,
    keepsExcept_trans hkeeps (keepsExcept_move_halted he (hstatus ▸ hhalt) hstepped hmove)⟩

/-- Settles O17: along the run the core stays halted, as STATUS is among the pieces of state that are kept. -/
theorem haltLastsUntilReset : Obligations.HaltLastsUntilReset := by
  refine ⟨fun s => step_halted, fun es y y' hes hhalt hy hrun => ?_⟩
  have hmove (e : Event) (he : e ∈ es) (z z' : System) :=
    onlyTimersAndKeysSince_move (y := z) (y' := z') (ne_of_mem_of_not_mem he hes) hhalt
  exact (run_keeps hmove y y' ⟨hy, keepsExcept_refl _ _⟩ hrun).2

/-! ### Boot -/

theorem wordAt_storeBytes (m : Memory) (a : Nat) (hi lo : Byte) (rest : List Byte) :
    wordAt (storeBytes m a (hi :: lo :: rest)) a = wordOfBytes hi lo := by
  have h0 := byteAt_storeBytes_at (us := hi :: lo :: rest) (j := 0) (by simp) m a
  have h1 := byteAt_storeBytes_at (us := hi :: lo :: rest) (j := 1) (by simp) m a
  rw [wordAt, h1]
  exact congrArg (wordOfBytes · lo) h0

/-- Settles O51: the image stands at 0x200, where PC points after a reset. -/
theorem bootRunsFirstWord : Obligations.BootRunsFirstWord := by
  intro y hi lo rest hlen
  have hfits : 0x200 + (hi :: lo :: rest).length ≤ 4096 := by simp only [List.length_cons]; omega
  have hload := loadEvent_fits hfits (resetEvent y.core)
  refine ⟨_, runEvents_reset_load y _, ?_⟩
  rw [hload]
  have hword := wordAt_storeBytes [] 0x200 hi lo rest
  exact ⟨rfl, hword, fun i hdecode => step_word rfl (by decide : (0x200#16).toNat ≤ 0xFFE) hword hdecode⟩

/-! ### A word at PC -/

theorem placeAtPc_eq {s : State} (h : s.pc.toNat ≤ 0xFFE) (w : Word) :
    placeAtPc s w = { s with mem := storeBytes s.mem s.pc.toNat [hiByte w, loByte w] } := by
  have h0 : s.pc.toNat < Config.memSize := by simp only [Config.memSize]; omega
  have h1 : s.pc.toNat + 1 < Config.memSize := by simp only [Config.memSize]; omega
  simp only [placeAtPc, memWrite, if_pos h0, if_pos h1, storeBytes]

theorem decode_of_decodeTableWord {w : Nat} {i : Instr} (h : decodeTableWord 16 w = some i) :
    decode (tableWord 16 w) = .ok i := by
  simp only [decodeTableWord, tableWordBytes, decodeBytes, wordOfBytes_bytes] at h
  cases hd : decode (tableWord 16 w) with
  | error e => simp [hd] at h
  | ok j => simpa [hd] using h

/-- Settles O10: placing the word is a store of its two bytes. -/
theorem placedWordIsRun : Obligations.PlacedWordIsRun := by
  intro s w i hrun hpc htable
  have hplaced : s.withFetchWord 16 w = _ := placeAtPc_eq hpc (tableWord 16 w)
  have hword := (wordAt_storeBytes s.mem s.pc.toNat _ _ []).trans (wordOfBytes_bytes (tableWord 16 w))
  rw [hplaced]
  refine ⟨step_word hrun hpc hword (decode_of_decodeTableWord htable), keepsExcept_setMem s _, ?_⟩
  exact memExcept_storeBytes s s.pc.toNat [hiByte (tableWord 16 w), loByte (tableWord 16 w)]

/-- The word of a jump to an address of 12 bits. -/
theorem jp_word_of_pc {w : Word} (h : w.toNat ≤ 0xFFE) : 0x1000#16 ||| w = formNNN 0x1#4 (w.setWidth 12) := by
  apply BitVec.eq_of_toNat_eq
  have hor : 0x1000 + w.toNat = 0x1000 ||| w.toNat := Nat.two_pow_add_eq_or_of_lt (i := 12) (by omega) 1
  have hlow : w.toNat % 2 ^ 12 = w.toNat := Nat.mod_eq_of_lt (by omega)
  rw [formNNN_toNat, BitVec.toNat_or, BitVec.toNat_setWidth, hlow]
  exact hor.symm

/-- Settles O56: the step is a jump to PC. -/
theorem parkedIsFixedPoint : Obligations.ParkedIsFixedPoint := by
  rintro s ⟨hrun, hpc, hword⟩
  have hself : s.pc.toNat = (s.pc.setWidth 12 : Addr12).toNat := by
    rw [BitVec.toNat_setWidth]; omega
  calc step s = exec (.jp (s.pc.setWidth 12)) s := step_word hrun hpc (hword.trans (jp_word_of_pc hpc)) (decode_jp_word _)
    _ = .next (setPc s (zextAddr (s.pc.setWidth 12))) := exec_jp _ s
    _ = .next s := by rw [setPc_zextAddr_self hself]

end Sys2Proof

/-! ## Proofs: the instructions that write VF as a flag

Each writes one general register and VF; which of the two writes is first shows only where the register is VF
(43_alu.md R160, R165 to R169). -/

namespace Sys2Proof

open Machine Safety

/-! ### The flags as numbers -/

theorem flagByte_toNat (c : Prop) [Decidable c] : (flagByte (decide c)).toNat = if c then 1 else 0 := by
  by_cases h : c <;> simp [flagByte, h]

theorem carryFlag_toNat (a b : Byte) : (carryFlag a b).toNat = if 255 < a.toNat + b.toNat then 1 else 0 :=
  flagByte_toNat _

theorem greaterFlag_toNat (a b : Byte) : (greaterFlag a b).toNat = if b.toNat < a.toNat then 1 else 0 :=
  flagByte_toNat _

theorem lowBitFlag_toNat (a : Byte) : (lowBitFlag a).toNat = a.toNat % 2 := by
  rw [lowBitFlag, BitVec.toNat_and]
  exact Nat.and_one_is_mod a.toNat

theorem highBitFlag_toNat (a : Byte) : (highBitFlag a).toNat = a.toNat / 128 := by
  rw [highBitFlag, BitVec.toNat_ushiftRight, Nat.shiftRight_eq_div_pow]

theorem sub_toNat (a b : Byte) : (a - b).toNat = (a.toNat + 256 - b.toNat) % 256 := by bv_omega

theorem shiftRight_one_toNat (a : Byte) : (a >>> 1).toNat = a.toNat / 2 := by
  rw [BitVec.toNat_ushiftRight, Nat.shiftRight_eq_div_pow]

theorem shiftLeft_one_toNat (a : Byte) : (a <<< 1).toNat = a.toNat * 2 % 256 := by
  rw [BitVec.toNat_shiftLeft, Nat.shiftLeft_eq]

/-! ### ADD: the register, then the flag -/

theorem exec_addReg (x y : RegIdx) (s : State) : exec (.addReg x y) s = .next (advance (writeFlag
    (writeReg s x (readReg s x + readReg s y)) (carryFlag (readReg s x) (readReg s y)))) := rfl

/-- Settles O29: the flag is written last, so it stands in VF for every x. -/
theorem addSetsCarry : Obligations.AddSetsCarry := by
  intro x y s
  have hdone := completes_of_exec (exec_addReg x y s) not_false
  refine ⟨decode_addReg_word x y, _, exec_addReg x y s, ?flag, fun hx => ?sum, hdone.regs, rfl, hdone.keeps⟩
  case flag => rw [readReg_advance, readReg_writeFlag, if_pos rfl, carryFlag_toNat]
  case sum => rw [readReg_advance, readReg_writeFlag, if_neg hx, readReg_writeReg_same, BitVec.toNat_add]

/-! ### SUB, SUBN, SHR, SHL: the flag, then the register -/

/-- The operands are read in the state that the write of the flag leaves (log entry 9). -/
theorem exec_subReg (x y : RegIdx) (s : State) :
    exec (.subReg x y) s = .next (advance (writeReg (writeFlag s (greaterFlag (readReg s x) (readReg s y))) x
      (readReg (writeFlag s (greaterFlag (readReg s x) (readReg s y))) x
        - readReg (writeFlag s (greaterFlag (readReg s x) (readReg s y))) y))) := rfl

theorem exec_subnReg (x y : RegIdx) (s : State) :
    exec (.subnReg x y) s = .next (advance (writeReg (writeFlag s (greaterFlag (readReg s y) (readReg s x))) x
      (readReg (writeFlag s (greaterFlag (readReg s y) (readReg s x))) y
        - readReg (writeFlag s (greaterFlag (readReg s y) (readReg s x))) x))) := rfl

theorem exec_shr (x : RegIdx) (s : State) :
    exec (.shr x) s = .next (advance (writeReg (writeFlag s (lowBitFlag (readReg s x))) x
      (readReg (writeFlag s (lowBitFlag (readReg s x))) x >>> 1))) := rfl

theorem exec_shl (x : RegIdx) (s : State) :
    exec (.shl x) s = .next (advance (writeReg (writeFlag s (highBitFlag (readReg s x))) x
      (readReg (writeFlag s (highBitFlag (readReg s x))) x <<< 1))) := rfl

/-- VF keeps the flag unless the second write is to VF. -/
theorem readReg_flag_then_reg {x : RegIdx} (hx : x ≠ 15) (s : State) (f b : Byte) :
    readReg (advance (writeReg (writeFlag s f) x b)) 15 = f := by
  rw [readReg_advance, readReg_writeReg_other _ b hx.symm, readReg_writeFlag, if_pos rfl]

/-- The difference is of the registers as the first write left them: VF reads as the flag. -/
theorem flag_then_difference_toNat (s : State) (f : Byte) (x p q : RegIdx) :
    (readReg (advance (writeReg (writeFlag s f) x (readReg (writeFlag s f) p - readReg (writeFlag s f) q))) x).toNat
      = ((if p = 15 then f else readReg s p).toNat + 256 - (if q = 15 then f else readReg s q).toNat) % 256 := by
  rw [readReg_advance_writeReg_same, sub_toNat, readReg_writeFlag, readReg_writeFlag]

/-- Settles O30: the four cases are which of x and y is the VF that was just written. -/
theorem subtractSetsGreater : Obligations.SubtractSetsGreater := by
  intro x y s
  have hdone := completes_of_exec (exec_subReg x y s) not_false
  refine ⟨decode_subReg_word x y, _, exec_subReg x y s, hdone.regs, rfl, hdone.keeps, ?_⟩
  dsimp only
  rw [← greaterFlag_toNat]
  have hdiff := flag_then_difference_toNat s (greaterFlag (readReg s x) (readReg s y)) x x y
  split_ifs with hx hy hy
  · subst hx hy
    rw [hdiff, if_pos rfl]; omega
  · subst hx
    rw [hdiff, if_pos rfl, if_neg hy]
  · exact ⟨congrArg _ (readReg_flag_then_reg hx s _ _), by rw [hdiff, if_neg hx, if_pos hy]⟩
  · exact ⟨congrArg _ (readReg_flag_then_reg hx s _ _), by rw [hdiff, if_neg hx, if_neg hy]⟩

/-- Settles O31: as for SUB, with the operands of the difference exchanged. -/
theorem reverseSubtractSetsGreater : Obligations.ReverseSubtractSetsGreater := by
  intro x y s
  have hdone := completes_of_exec (exec_subnReg x y s) not_false
  refine ⟨decode_subnReg_word x y, _, exec_subnReg x y s, hdone.regs, rfl, hdone.keeps, ?_⟩
  dsimp only
  rw [← greaterFlag_toNat]
  have hdiff := flag_then_difference_toNat s (greaterFlag (readReg s y) (readReg s x)) x y x
  split_ifs with hx hy hy
  · subst hx hy
    rw [hdiff, if_pos rfl]; omega
  · subst hx
    rw [hdiff, if_pos rfl, if_neg hy]
  · exact ⟨congrArg _ (readReg_flag_then_reg hx s _ _), by rw [hdiff, if_neg hx, if_pos hy]⟩
  · exact ⟨congrArg _ (readReg_flag_then_reg hx s _ _), by rw [hdiff, if_neg hx, if_neg hy]⟩

/-- Settles O32: for x = 15 the flag itself is shifted. -/
theorem shiftsSetBitOut : Obligations.ShiftsSetBitOut := by
  intro x s
  have hright := completes_of_exec (exec_shr x s) not_false
  have hleft := completes_of_exec (exec_shl x s) not_false
  refine ⟨⟨_, exec_shr x s, hright.regs, rfl, hright.keeps, ?right⟩,
    ⟨_, exec_shl x s, hleft.regs, rfl, hleft.keeps, ?left⟩⟩
  case right =>
    split_ifs with hx
    · subst hx
      rw [readReg_advance_writeReg_same, readReg_writeFlag, if_pos rfl, shiftRight_one_toNat, lowBitFlag_toNat]
      omega
    · rw [readReg_flag_then_reg hx, readReg_advance_writeReg_same, readReg_writeFlag, if_neg hx, shiftRight_one_toNat,
        lowBitFlag_toNat]
      exact ⟨rfl, rfl⟩
  case left =>
    have := (readReg s x).isLt
    split_ifs with hx hbit
    · subst hx
      rw [readReg_advance_writeReg_same, readReg_writeFlag, if_pos rfl, shiftLeft_one_toNat, highBitFlag_toNat]
      omega
    · subst hx
      rw [readReg_advance_writeReg_same, readReg_writeFlag, if_pos rfl, shiftLeft_one_toNat, highBitFlag_toNat]
      omega
    · rw [readReg_flag_then_reg hx, readReg_advance_writeReg_same, readReg_writeFlag, if_neg hx, shiftLeft_one_toNat,
        highBitFlag_toNat]
      exact ⟨rfl, rfl⟩

end Sys2Proof

/-! ## Proofs: random bytes, timers, keys, and the index register

42_immediate_and_random.md R152, R153; 46_keypad_and_timers.md R214 to R218; 44_index_and_memory.md R182 to R187. -/

namespace Sys2Proof

open Machine Safety

/-! ### RND and the timers -/

theorem exec_rnd (x : RegIdx) (k : Byte) (s : State) :
    exec (.rnd x k) s = .next (advance (writeReg (drawByte s).2 x (k + Config.randomByte s.draws))) := rfl

/-- Settles O27: the sum of two bytes wraps at 256. -/
theorem randomAddsDrawnByte : Obligations.RandomAddsDrawnByte := by
  intro x k s
  have hdone := completes_of_exec (exec_rnd x k s) not_false
  refine ⟨decode_rnd_word x k, _, exec_rnd x k s, ?sum, hdone.regs, rfl, rfl, hdone.keeps⟩
  case sum => rw [readReg_advance_writeReg_same, BitVec.toNat_add]

theorem exec_ldVxDt (x : RegIdx) (s : State) : exec (.ldVxDt x) s = .next (advance (writeReg s x s.dt)) := rfl

theorem exec_ldDtVx (x : RegIdx) (s : State) : exec (.ldDtVx x) s = .next (advance { s with dt := readReg s x }) := rfl

theorem exec_ldStVx (x : RegIdx) (s : State) : exec (.ldStVx x) s = .next (advance { s with st := readReg s x }) := rfl

/-- Settles O46: each transfers one byte and advances PC. -/
theorem timerTransfers : Obligations.TimerTransfers := by
  refine fun x s => ⟨⟨decode_ldVxDt_word x, decode_ldDtVx_word x, decode_ldStVx_word x⟩, ?read, ?delay, ?sound⟩
  case read =>
    exact ⟨_, exec_ldVxDt x s, readReg_advance_writeReg_same s x _, frame_advance_writeReg s x _⟩
  case delay => exact ⟨_, exec_ldDtVx x s, rfl, rfl, (completes_of_exec (exec_ldDtVx x s) not_false).keeps⟩
  case sound => exact ⟨_, exec_ldStVx x s, rfl, rfl, (completes_of_exec (exec_ldStVx x s) not_false).keeps⟩

/-! ### The key wait -/

theorem exec_ldVxK_none {x : RegIdx} {s : State} (h : ∀ k, keyPressed s k = false) : exec (.ldVxK x) s = .next s := by
  obtain ⟨-, hexec⟩ | ⟨k, -, hk, -⟩ := execLdVxK_cases x s
  · exact hexec
  · simp [h k] at hk

/-- Settles O44: a waiting core runs LD Vx, K again. -/
theorem keyWaitWithoutKey : Obligations.KeyWaitWithoutKey := by
  refine ⟨fun x s => ⟨decode_ldVxK_word x, exec_ldVxK_none⟩, ?waiting⟩
  rintro s hrun ⟨hpc, ⟨x, hword⟩, hnone⟩
  exact (step_word hrun hpc hword (decode_ldVxK_word x)).trans (exec_ldVxK_none hnone)

theorem keyPressed_congr {s t : State} (h : t.keys = s.keys) (k : KeyIdx) : keyPressed t k = keyPressed s k := by
  simp only [keyPressed, h]

/-- Settles O45: which key is the free choice, but it is a pressed one (`chooseKey_mem`). -/
theorem keyWaitTakesPressedKey : Obligations.KeyWaitTakesPressedKey := by
  intro x s hsome
  obtain ⟨hnone, -⟩ | ⟨k, made, hk, hexec⟩ := execLdVxK_cases x s
  · obtain ⟨k, hk⟩ := hsome
    simp [hnone k] at hk
  · have hdone := completes_of_exec (i := .ldVxK x) hexec not_false
    refine ⟨_, k, hexec, hk, ?number, fun j => ?keys, hdone.regs, ?pc, hdone.keeps⟩
    case number =>
      rw [readReg_advance, readReg_setKey, readReg_writeReg_same, BitVec.toNat_ofNat]
      omega
    case keys =>
      have hkeys : (writeReg (countDraw s made) x (BitVec.ofNat 8 k.val)).keys = s.keys := countDraw_keys s made
      exact (keyPressed_setKey _ k j false).trans (if_congr Iff.rfl rfl (keyPressed_congr hkeys j))
    case pc => simp

/-! ### The index register -/

theorem exec_addI (x : RegIdx) (s : State) :
    exec (.addI x) s = .next (advance (setIndex s (s.i + zextByte (readReg s x)))) := rfl

theorem exec_ldF (x : RegIdx) (s : State) :
    exec (.ldF x) s = .next (advance (setIndex s (glyphAddress (readReg s x)))) := rfl

theorem glyphAddress_toNat (b : Byte) : (glyphAddress b).toNat = 5 * b.toNat := by
  have := b.isLt
  rw [glyphAddress, BitVec.toNat_mul, zextByte_toNat]
  simp only [Config.glyphStride, BitVec.toNat_ofNat]
  omega

/-- Settles O34: the sum wraps at 65536, and the product stays below it. -/
theorem indexArithmetic : Obligations.IndexArithmetic := by
  refine fun x s => ⟨⟨decode_addI_word x, decode_ldF_word x⟩, ⟨_, exec_addI x s, ?sum, rfl,
    keepsExcept_advance_setIndex s _⟩, _, exec_ldF x s, glyphAddress_toNat _, rfl, keepsExcept_advance_setIndex s _⟩
  case sum => rw [advance_i, setIndex_i, BitVec.toNat_add, zextByte_toNat]

/-! ### Transfers between registers and memory -/

theorem advanceIndex_i_toNat {s : State} {x : RegIdx} (h : s.i.toNat + x.val ≤ 0xFFF) :
    (advanceIndex s x).i.toNat = s.i.toNat + x.val + 1 := by
  rw [advanceIndex_i, BitVec.toNat_add, BitVec.toNat_ofNat]
  omega

/-- The digits of R185, each below ten. -/
theorem bcdDigits_toNat (b : Byte) :
    ((bcdDigits b).getD 0 0).toNat = b.toNat / 100 ∧ ((bcdDigits b).getD 1 0).toNat = b.toNat / 10 % 10
      ∧ ((bcdDigits b).getD 2 0).toNat = b.toNat % 10 := by
  have := b.isLt
  simp only [bcdDigits, List.getD_cons_zero, List.getD_cons_succ, BitVec.toNat_ofNat]
  omega

/-- Settles O35: the three digits are stored in order and make up the byte. -/
theorem bcdStoresDigits : Obligations.BcdStoresDigits := by
  intro x s hi
  have hin : s.i.toNat + 3 ≤ 4096 := by omega
  have hexec : exec (.ldB x) s = _ := execLdB_ok x hin
  have hdone := completes_of_exec hexec (Nat.not_lt.mpr hin)
  have hbyte (j : Nat) (hj : j < 3) :
      byteAt (storeBytes s.mem (indexBase s) (bcdDigits (readReg s x))) (indexBase s + j)
        = (bcdDigits (readReg s x)).getD j 0 := byteAt_storeBytes_at hj s.mem (indexBase s)
  refine ⟨decode_ldB_word x, _, hexec, ?digits, memExcept_storeBytes s _ (bcdDigits (readReg s x)), rfl, hdone.keeps⟩
  have hfirst : byteAt (storeBytes s.mem (indexBase s) (bcdDigits (readReg s x))) (indexBase s)
      = (bcdDigits (readReg s x)).getD 0 0 := hbyte 0 (by decide)
  obtain ⟨h100, h10, h1⟩ := bcdDigits_toNat (readReg s x)
  have hlt := (readReg s x).isLt
  dsimp only [advance_mem]
  rw [hfirst, hbyte 1 (by decide), hbyte 2 (by decide), h100, h10, h1]
  omega

/-- Settles O36: the values of V0 to Vx are stored in order. -/
theorem registerDump : Obligations.RegisterDump := by
  intro x s hi
  have hin : s.i.toNat + (x.val + 1) ≤ 4096 := by omega
  have hexec : exec (.ldMemVx x) s = _ := execLdMemVx_ok hin
  have hdone := completes_of_exec hexec (Nat.not_lt.mpr hin)
  refine ⟨decode_ldMemVx_word x, _, hexec, fun j hj => ?bytes, ?rest, ?index, rfl, hdone.keeps⟩
  case bytes =>
    have hlen : j.val < (regValues s x).length := by rw [regValues_length]; exact Nat.lt_succ_of_le hj
    exact (byteAt_storeBytes_at hlen s.mem (indexBase s)).trans (regValues_getD s x j hj)
  case rest => exact regValues_length s x ▸ memExcept_storeBytes s _ (regValues s x)
  case index => exact advanceIndex_i_toNat hi

theorem loadRegs_i (s : State) (x : RegIdx) : (loadRegs s x).i = s.i := by
  obtain ⟨v', h⟩ := loadRegs_rest s x
  rw [h]

/-- Settles O37: by `readReg_loadRegs`. -/
theorem registerLoad : Obligations.RegisterLoad := by
  intro x s hi
  have hin : s.i.toNat + (x.val + 1) ≤ 4096 := by omega
  have hexec : exec (.ldVxMem x) s = _ := execLdVxMem_ok hin
  have hdone := completes_of_exec hexec (Nat.not_lt.mpr hin)
  refine ⟨decode_ldVxMem_word x, _, hexec, readReg_loadRegs s x, ?index, ?pc, hdone.keeps⟩
  case index => rw [advance_i, advanceIndex_i_toNat (by rwa [loadRegs_i]), loadRegs_i]
  case pc => exact congrArg (· + 2) (loadRegs_pc s x)

/-- Settles O38: the reloaded I is the address the dump began at, and nothing between the two touches memory. -/
theorem dumpThenLoadRestores : Obligations.DumpThenLoadRestores := by
  intro x a s hia hin
  obtain ⟨-, t, ht, hdumped, -, hti, -⟩ := registerDump x s (hia ▸ hin)
  refine ⟨t, ht, fun v' => ?_⟩
  obtain ⟨-, u, hu, hui, -, hukeeps⟩ := loadIndexSetsI a { t with v := v' }
  obtain ⟨-, w, hw, hloaded, hwi, -⟩ := registerLoad x u (hui ▸ hin)
  have hbase : indexBase u = indexBase s := hui.trans hia.symm
  refine ⟨u, w, hu, hw, fun j hj => ?_, BitVec.eq_of_toNat_eq (by omega)⟩
  rw [hloaded j, if_pos hj, hukeeps .mem (by decide), hbase]
  exact hdumped j hj

/-- Settles O39: the two bytes at the next PC are V0 and V1. -/
theorem storeSeenByNextFetch : Obligations.StoreSeenByNextFetch := by
  intro x i s hrun hx hpc hi hin hdecode
  obtain ⟨-, t, ht, hdumped, -, -, htpc, hkeeps⟩ := registerDump x s hin
  refine ⟨t, ht, ?_⟩
  have hrun' : t.status.halted = false := by rw [hkeeps .status (by decide)]; exact hrun
  have hnext : t.pc.toNat = indexBase s := by rw [htpc, indexBase, hi]; bv_omega
  have h0 := hdumped 0 (Fin.zero_le x)
  have h1 := hdumped 1 hx
  refine step_word hrun' (by rw [hnext, indexBase]; omega) ?_ hdecode
  rw [hnext]
  exact congrArg₂ wordOfBytes h0 h1

end Sys2Proof

/-! ## Proofs: drawing a sprite

A draw inverts the pixels the sprite covers; a second one at the same origin covers the same pixels, so it inverts them back
(45_display.md R201, R202). -/

namespace Sys2Proof

open Machine Safety

theorem spriteCovers_iff {m : Memory} {base cx cy n : Nat} {r : Fin Config.displayH} {c : Fin Config.displayW} :
    SpriteCovers m base cx cy n r.val c.val ↔ (r, c) ∈ spritePixels m base cx cy n :=
  (mem_spritePixels m base cx cy n r c).symm

theorem pixelAt_drawSprite (m : Memory) (base cx cy : Nat) (n : Height) (g : Grid) (r : Fin Config.displayH)
    (c : Fin Config.displayW) :
    (SpriteCovers m base cx cy n.val r.val c.val →
        pixelAt (drawSprite m base cx cy n.val g).1 r c = !(pixelAt g r c))
      ∧ (¬ SpriteCovers m base cx cy n.val r.val c.val →
        pixelAt (drawSprite m base cx cy n.val g).1 r c = pixelAt g r c) := by
  obtain ⟨hpixel, -⟩ := drawSprite_spec m base cx cy (Nat.le_of_lt_succ n.isLt) g
  rw [hpixel, spriteCovers_iff]
  exact ⟨fun h => if_pos h, fun h => if_neg h⟩

theorem drawSprite_hit_iff (m : Memory) (base cx cy : Nat) (n : Height) (g : Grid) :
    (drawSprite m base cx cy n.val g).2 = true ↔
      ∃ r c, pixelAt g r c = true ∧ SpriteCovers m base cx cy n.val r.val c.val := by
  obtain ⟨-, hhit⟩ := drawSprite_spec m base cx cy (Nat.le_of_lt_succ n.isLt) g
  rw [hhit]
  constructor
  · rintro ⟨⟨r, c⟩, hcover, hon⟩
    exact ⟨r, c, hon, spriteCovers_iff.mpr hcover⟩
  · rintro ⟨r, c, hon, hcover⟩
    exact ⟨(r, c), spriteCovers_iff.mp hcover, hon⟩

/-- Settles O41: the grid and the hit of `drawSprite`, and VF the hit as a byte. -/
theorem drawInvertsSpritePixels : Obligations.DrawInvertsSpritePixels := by
  intro x y n s hin
  have hexec : exec (.drw x y n) s = _ := execDrw_ok x y hin
  have hdone := completes_of_exec hexec (by simp only [FaultsWhen]; omega)
  have hhit := drawSprite_hit_iff s.mem (indexBase s) (readReg s x).toNat (readReg s y).toNat n s.fb
  refine ⟨decode_drw_word x y n, _, hexec, pixelAt_drawSprite _ _ _ _ n s.fb, fun h => ?hit, fun h => ?miss, hdone.regs,
    rfl, hdone.keeps⟩
  case hit => rw [readReg_advance, readReg_writeFlag, if_pos rfl, hhit.mpr h]; rfl
  case miss => rw [readReg_advance, readReg_writeFlag, if_pos rfl, Bool.eq_false_iff.mpr (mt hhit.mp h)]; rfl

theorem spriteCovers_congr {m m' : Memory} (h : ∀ a, byteAt m' a = byteAt m a) (base cx cy n r c : Nat) :
    SpriteCovers m' base cx cy n r c ↔ SpriteCovers m base cx cy n r c := by
  simp only [SpriteCovers, h]

/-- A 1 bit of a sprite lands on some pixel. -/
theorem spriteCovers_of_bit {m : Memory} {base n j b : Nat} (cx cy : Nat) (hj : j < n) (hb : b < 8)
    (hbit : (byteAt m (base + j)).getLsbD b = true) :
    ∃ (r : Fin Config.displayH) (c : Fin Config.displayW), SpriteCovers m base cx cy n r.val c.val :=
  ⟨wrapRow cy j, wrapCol cx (7 - b), j, 7 - b, hj, by omega, by rwa [Nat.sub_sub_self (by omega)], rfl, rfl⟩

/-- Settles O42: the first draw keeps the registers of the origin, I and the sprite's bytes, so both draws cover the same
pixels. -/
theorem drawTwiceRestores : Obligations.DrawTwiceRestores := by
  intro x y n s hx hy hin
  obtain ⟨-, t, ht, htpixel, -, htmiss, htregs, -, htkeeps⟩ := drawInvertsSpritePixels x y n s hin
  have hi : t.i = s.i := htkeeps .i (by simp)
  obtain ⟨-, u, hu, hupixel, huhit, -⟩ := drawInvertsSpritePixels x y n t (hi ▸ hin)
  have hbase : indexBase t = indexBase s := congrArg BitVec.toNat hi
  simp only [htregs x (by simpa using hx), htregs y (by simpa using hy), hbase,
    spriteCovers_congr (htkeeps .mem (by simp))] at hupixel huhit
  refine ⟨t, u, ht, hu, grid_ext fun r c => ?_, ?_⟩
  · by_cases hcover : SpriteCovers s.mem (indexBase s) (readReg s x).toNat (readReg s y).toNat n.val r.val c.val
    · rw [(hupixel r c).1 hcover, (htpixel r c).1 hcover, Bool.not_not]
    · rw [(hupixel r c).2 hcover, (htpixel r c).2 hcover]
  · rintro ⟨j, b, hj, hb, hbit⟩ hoff
    obtain ⟨r, c, hcover⟩ := spriteCovers_of_bit (readReg s x).toNat (readReg s y).toNat hj hb hbit
    refine ⟨htmiss ?_, huhit ⟨r, c, ?_, hcover⟩⟩
    · rintro ⟨r', c', hon, hcover'⟩
      simp [hoff r' c' hcover'] at hon
    · rw [(htpixel r c).1 hcover, hoff r c hcover, Bool.not_false]

end Sys2Proof

/-! ## Proofs: what no instruction reads

ST, and the entries of the call stack at SP and above (10_state.md R29, R30). Two cores that differ there alone are followed
through a step together: LD ST gives both the same ST, CALL makes one more entry live, and no other instruction writes
either. -/

namespace Sys2Proof

open Machine Safety

/-- `s` with another sound timer and another call stack. -/
def reseat (b : Byte) (stk : Vector Word Config.stackDepth) (s : State) : State := { s with st := b, stack := stk }

/-- The outcome `o'` is `.next t` but for ST and dead entries; where ST, or the stack, was the same in `s`, it is so in
`t`. -/
def FollowsReseated (b : Byte) (stk : Vector Word Config.stackDepth) (s t : State)
    (o' : Host.Outcome State Fault Refusal) : Prop :=
  ∃ b' stk', o' = .next (reseat b' stk' t) ∧ LiveSame t.sp.val t (reseat b' stk' t)
    ∧ (b = s.st → b' = t.st) ∧ (stk = s.stack → stk' = t.stack)

section

variable {b : Byte} {stk : Vector Word Config.stackDepth} {s t : State}

theorem loadRegs_reseat (x : RegIdx) : loadRegs (reseat b stk s) x = reseat b stk (loadRegs s x) := by
  obtain ⟨v, h⟩ := loadRegs_rest s x
  obtain ⟨v', h'⟩ := loadRegs_rest (reseat b stk s) x
  have hv : (loadRegs (reseat b stk s) x).v = (loadRegs s x).v :=
    v_ext fun r => (readReg_loadRegs (reseat b stk s) x r).trans (readReg_loadRegs s x r).symm
  obtain rfl : v' = v := by rwa [h, h'] at hv
  rw [h, h']; rfl

theorem countDraw_reseat (made : Bool) : countDraw (reseat b stk s) made = reseat b stk (countDraw s made) := by
  cases made <;> rfl

theorem execLdVxK_reseat {x : RegIdx} (hexec : execLdVxK x s = .next t) :
    execLdVxK x (reseat b stk s) = .next (reseat b stk t) := by
  have hkeys : pressedKeys (reseat b stk s) = pressedKeys s := rfl
  unfold execLdVxK at hexec ⊢
  rw [hkeys]
  split at hexec
  · cases hexec; rfl
  · cases hexec
    dsimp only
    rw [countDraw_reseat]; rfl

/-- An instruction that writes neither ST nor the call stack does the same on both cores. -/
theorem exec_reseat_unwritten {i : Instr} (hst : .st ∉ partsWritten i) (hsp : .sp ∉ partsWritten i)
    (hcheck : ¬ FaultsWhen s i) (hexec : exec i s = .next t) :
    exec i (reseat b stk s) = .next (reseat b stk t) := by
  cases i
  case ret | call => simp [partsWritten] at hsp
  case ldStVx => simp [partsWritten] at hst
  case skp =>
    obtain ⟨k, hk⟩ := key_of_reg hcheck
    obtain rfl := next_inj (exec_skp hk) hexec
    exact exec_skp (s := reseat b stk s) hk
  case sknp =>
    obtain ⟨k, hk⟩ := key_of_reg hcheck
    obtain rfl := next_inj (exec_sknp hk) hexec
    exact exec_sknp (s := reseat b stk s) hk
  case drw x y n =>
    have hin := drw_range hcheck
    obtain rfl := next_inj (execDrw_ok x y hin) hexec
    exact execDrw_ok (s := reseat b stk s) x y hin
  case ldB x =>
    obtain rfl := next_inj (execLdB_ok x (Nat.le_of_not_lt hcheck)) hexec
    exact execLdB_ok (s := reseat b stk s) x (Nat.le_of_not_lt hcheck)
  case ldMemVx =>
    obtain rfl := next_inj (execLdMemVx_ok (Nat.le_of_not_lt hcheck)) hexec
    exact execLdMemVx_ok (s := reseat b stk s) (Nat.le_of_not_lt hcheck)
  case ldVxMem x =>
    obtain rfl := next_inj (execLdVxMem_ok (Nat.le_of_not_lt hcheck)) hexec
    refine (execLdVxMem_ok (s := reseat b stk s) (Nat.le_of_not_lt hcheck)).trans ?_
    rw [loadRegs_reseat]; rfl
  case ldVxK => exact execLdVxK_reseat hexec
  all_goals cases hexec; rfl

theorem ret_follows_reseated {j : Fin Config.stackDepth} (hj : s.sp.val = j.val + 1)
    (hlive : LiveSame s.sp.val s (reseat b stk s)) :
    FollowsReseated b stk s (setPc { s with sp := j.castSucc } s.stack[j]) (exec .ret (reseat b stk s)) := by
  have hpop : stk[j] = s.stack[j] := hlive j (by omega)
  refine ⟨b, stk, (exec_ret_pop (s := reseat b stk s) hj).trans ?_, fun k hk => hlive k ?_, id, id⟩
  · rw [← hpop]; rfl
  · simp only [setPc_sp, Fin.val_castSucc] at hk
    omega

theorem call_follows_reseated {j : Fin Config.stackDepth} (a : Addr12) (hj : s.sp.val = j.val)
    (hlive : LiveSame s.sp.val s (reseat b stk s)) :
    FollowsReseated b stk s
      (setPc { s with stack := s.stack.set j.val (s.pc + 2) j.isLt, sp := j.succ } (zextAddr a))
      (exec (.call a) (reseat b stk s)) := by
  refine ⟨b, stk.set j.val (s.pc + 2) j.isLt, exec_call_push (s := reseat b stk s) a hj, fun k hk => ?_, id,
    fun h => h ▸ rfl⟩
  simp only [setPc_sp, Fin.val_succ] at hk
  rcases Nat.lt_or_ge k.val j.val with hlt | hge
  · exact (stack_set_other stk _ hlt).trans ((hlive k (by omega)).trans (stack_set_other s.stack _ hlt).symm)
  · obtain rfl : k = j := Fin.ext (by omega)
    exact (stack_set_same stk _ k).trans (stack_set_same s.stack _ k).symm

theorem unwritten_follows_reseated {i : Instr} (hexec : exec i s = .next t) (hcheck : ¬ FaultsWhen s i)
    (hlive : LiveSame s.sp.val s (reseat b stk s)) (hst : .st ∉ partsWritten i) (hsp : .sp ∉ partsWritten i)
    (hstack : .stack ∉ partsWritten i) : FollowsReseated b stk s t (exec i (reseat b stk s)) := by
  have hkeeps := (completes_of_exec hexec hcheck).keeps
  have hst' : t.st = s.st := hkeeps .st hst
  have hsp' : t.sp = s.sp := hkeeps .sp hsp
  have hstack' : t.stack = s.stack := hkeeps .stack hstack
  refine ⟨b, stk, exec_reseat_unwritten hst hsp hcheck hexec, fun j hj => ?_, fun h => h.trans hst'.symm,
    fun h => h.trans hstack'.symm⟩
  rw [hstack']
  exact hlive j (hsp' ▸ hj)

theorem exec_follows_reseated {i : Instr} (hlive : LiveSame s.sp.val s (reseat b stk s)) (hexec : exec i s = .next t) :
    FollowsReseated b stk s t (exec i (reseat b stk s)) := by
  by_cases hcheck : FaultsWhen s i
  · obtain rfl := next_inj (exec_fault hcheck) hexec
    exact ⟨b, stk, exec_fault (s := reseat b stk s) hcheck, hlive, id, id⟩
  cases i
  case ret =>
    obtain ⟨j, hj⟩ := ret_entry hcheck
    exact next_inj (exec_ret_pop hj) hexec ▸ ret_follows_reseated hj hlive
  case call a =>
    obtain ⟨j, hj⟩ := call_entry hcheck
    exact next_inj (exec_call_push a hj) hexec ▸ call_follows_reseated a hj hlive
  case ldStVx x =>
    cases hexec
    exact ⟨readReg s x, stk, rfl, hlive, fun _ => rfl, id⟩
  all_goals
    exact unwritten_follows_reseated hexec hcheck hlive (by simp [partsWritten]) (by simp [partsWritten])
      (by simp [partsWritten])

theorem step_follows_reseated (hlive : LiveSame s.sp.val s (reseat b stk s)) (hstep : step s = .next t) :
    FollowsReseated b stk s t (step (reseat b stk s)) := by
  obtain hhalt | ⟨hrun, hpc⟩ | ⟨hrun, hpc, e, he⟩ | ⟨hrun, hpc, i, hi⟩ := step_ways s
  · obtain rfl := next_inj (step_halted hhalt) hstep
    exact ⟨b, stk, step_halted (s := reseat b stk s) hhalt, hlive, id, id⟩
  · obtain rfl := next_inj (step_fetchFault hrun hpc) hstep
    exact ⟨b, stk, step_fetchFault (s := reseat b stk s) hrun hpc, hlive, id, id⟩
  · obtain rfl := next_inj (step_invalid hrun hpc he) hstep
    exact ⟨b, stk, step_invalid (s := reseat b stk s) hrun hpc he, hlive, id, id⟩
  · rw [step_word (s := reseat b stk s) hrun hpc rfl hi]
    exact exec_follows_reseated hlive ((step_word hrun hpc rfl hi).symm.trans hstep)

end

/-- Settles O54: the two cores have one call stack, before the step and after it. -/
theorem soundTimerIsNotRead : Obligations.SoundTimerIsNotRead := by
  intro s t b hstep
  obtain ⟨b', stk', ht', -, -, hstack⟩ := step_follows_reseated (b := b) (stk := s.stack) (fun _ _ => rfl) hstep
  obtain rfl := hstack rfl
  exact ⟨_, ht', keepsExcept_withParts [.st] t (reseat b' t.stack t)⟩

/-- Settles O55: the two cores have one sound timer, before the step and after it. -/
theorem deadEntriesUnobservable : Obligations.DeadEntriesUnobservable := by
  intro s t stk hlive hstep
  obtain ⟨b', stk', ht', hlive', hst, -⟩ := step_follows_reseated (b := s.st) (stk := stk) hlive hstep
  obtain rfl := hst rfl
  exact ⟨_, ht', keepsExcept_withParts [.stack] t (reseat t.st stk' t), hlive'⟩

end Sys2Proof
